-- ==== Sys2Proof/Word.lean ====
section
/-! DEFINITION. The value types of the hardware: every value is an unsigned number of a stated
width (spec/00_scope.md R8). -/

namespace Sys2Proof

/-- `u8`: a byte of memory, a general register. -/
abbrev Byte := BitVec 8

/-- `u12`: the address operand `nnn` of an instruction word. -/
abbrev Addr12 := BitVec 12

/-- `u16`: PC, I, a stack slot, an instruction word. -/
abbrev Word := BitVec 16

end Sys2Proof
end

