-- ==== Sys2Proof/Config.lean ====
section
/-! DEFINITION. The fixed parameters of the block (spec/00_scope.md R6). The four that R6 marks as
possible model arguments (FONT_BASE, DISPLAY_W, DISPLAY_H, RET_SKIPS_CALL) stand here at their
default values, and the operations that depend on one take it as an argument, so that another
value can be stated about. The hardware has no free value: the spec leaves no result open. -/

namespace Sys2Proof.Config

/-- MEM_SIZE: bytes of memory (R6, R31). -/
def memSize : Nat := 4096

/-- ADDR_MAX: the highest valid byte address (R6, R33). -/
def addrMax : Nat := 0xFFF

/-- PROG_BASE: load address and reset value of PC (R6, R30, R45). -/
def progBase : Nat := 0x200

/-- PROG_CAPACITY: the most bytes `load` accepts, `0xFFF - 0x200 + 1` (R6, R46). -/
def progCapacity : Nat := addrMax - progBase + 1

/-- INSTR_BYTES: the width of every instruction (R6, R54). -/
def instrBytes : Nat := 2

/-- FONT_GLYPH_BYTES: bytes of one glyph, one per row (R6, R38). -/
def fontGlyphBytes : Nat := 5

/-- FONT_BASE: first byte of the font table (R6, R38, decision D7; log entry 3). -/
def fontBase : Nat := 0x000

/-- DISPLAY_W: pixels in a row of the display surface (R6, R95, decision D21). -/
def displayW : Nat := 64

/-- DISPLAY_H: rows of the display surface (R6, R95, decision D21). -/
def displayH : Nat := 32

/-- RET_SKIPS_CALL: RET resumes at the popped address + 2 (R6, R79, decision D5; log entry 2). -/
def retSkipsCall : Bool := true

end Sys2Proof.Config
end

