-- ==== Sys2Proof/Syntax.lean ====
section
/-! DEFINITION. The instructions: one constructor per row of spec/opcode_table.json, the six
variants of the spec's `Opcode` (spec/30_encoding.md R58). -/

namespace Sys2Proof

/-- A decoded instruction. -/
inductive Instr where
  /-- `CLS`, ClearDisplay (R78). -/
  | cls
  /-- `RET`, ReturnFromSubroutine (R79). -/
  | ret
  /-- `HALT`, Halt (R83). -/
  | halt
  /-- `JP nnn`, Jump to a 12-bit address (R80). -/
  | jp (addr : Addr12)
  /-- `CALL nnn`, CallSubroutine at a 12-bit address (R81). -/
  | call (addr : Addr12)
  /-- `(unknown)`, Unknown: every word the five other rows do not match, kept whole (R84). -/
  | unknown (raw : Word)
  deriving DecidableEq, Repr

end Sys2Proof
end

