-- ==== Sys2Proof/WellFormed.lean ====
section
/-! DEFINITION. Which terms of `Instr` stand for an instruction word. The operand types bound every
operand of the five defined instructions; an `unknown` must hold a word of the `Unknown` space. -/

namespace Sys2Proof

/-- The `Unknown` space as spec/30_encoding.md R61 lists it: 0x0000–0x0FFF except the three fixed
words, and 0x3000–0xFFFF. (The decoder is written from R59's patterns instead.) -/
def inUnknownSpace (raw : Word) : Bool :=
  (raw.toNat ≤ 0x0FFF && raw.toNat != 0x00E0 && raw.toNat != 0x00EE && raw.toNat != 0x00FD)
    || 0x3000 ≤ raw.toNat

/-- An instruction is well formed when some word decodes to it (R58, R61; log entry 22). -/
def Instr.wf : Instr → Bool
  | .cls => true
  | .ret => true
  | .halt => true
  | .jp _ => true
  | .call _ => true
  | .unknown raw => inUnknownSpace raw

end Sys2Proof
end

