-- ==== Sys2Proof/Decode.lean ====
section
/-! DEFINITION. The field views of an instruction word, the total decoder and the encoder, from
spec/30_encoding.md. -/

namespace Sys2Proof

/-! ## Words and bytes (R9, R42, R55) -/

/-- `hi ++ lo`: the byte at the lower address is bits 15:8 (R9, R42). -/
def wordOfBytes (hi lo : Byte) : Word := hi ++ lo

/-- Bits 15:8 of a word: its first byte in memory. -/
def hiByte (w : Word) : Byte := w.extractLsb' 8 8

/-- Bits 7:0 of a word: its second byte in memory. -/
def loByte (w : Word) : Byte := w.extractLsb' 0 8

/-! ## Field views (R56) -/

/-- `id = w[15:12]`, the identifier nibble. -/
def idField (w : Word) : BitVec 4 := w.extractLsb' 12 4

/-- `nnn = w[11:0]`, the address operand. -/
def nnnField (w : Word) : Addr12 := w.extractLsb' 0 12

/-- `x = w[11:8]`, a register index. -/
def xField (w : Word) : BitVec 4 := w.extractLsb' 8 4

/-- `y = w[7:4]`, a register index. -/
def yField (w : Word) : BitVec 4 := w.extractLsb' 4 4

/-- `n = w[3:0]`, the sub-opcode. -/
def nField (w : Word) : BitVec 4 := w.extractLsb' 0 4

/-- `kk = w[7:0]`, the immediate byte. -/
def kkField (w : Word) : Byte := w.extractLsb' 0 8

/-- The six standard decompositions of a word (R56, conflict C4): derived, never stored. -/
structure FieldViews where
  id : BitVec 4
  nnn : Addr12
  x : BitVec 4
  y : BitVec 4
  n : BitVec 4
  kk : Byte
  deriving DecidableEq, Repr

/-- All six views of one word (R56). -/
def fieldViews (w : Word) : FieldViews where
  id := idField w
  nnn := nnnField w
  x := xField w
  y := yField w
  n := nField w
  kk := kkField w

/-! ## The decoder (R58, R59) -/

/-- `decode : u16 → Opcode`, pure and total (R58, R59; encodings of CLS, RET and HALT: log
entry 1). -/
def decodeWord (w : Word) : Instr :=
  if w = 0x00E0#16 then .cls
  else if w = 0x00EE#16 then .ret
  else if w = 0x00FD#16 then .halt
  else if idField w = 0x1#4 then .jp (nnnField w)
  else if idField w = 0x2#4 then .call (nnnField w)
  else .unknown w

/-- Why a byte sequence holds no instruction. -/
inductive DecodeError where
  /-- Fewer than the two bytes every instruction has (R54). -/
  | truncated
  deriving DecidableEq, Repr

/-- Decode the instruction at the head of a byte sequence and give back the rest: two bytes, the
first one the high byte (R54, R55). -/
def decode : List Byte → Except DecodeError (Instr × List Byte)
  | hi :: lo :: rest => .ok (decodeWord (wordOfBytes hi lo), rest)
  | [_] => .error .truncated
  | [] => .error .truncated

/-! ## The encoder (R59, R65) -/

/-- The word of an instruction: assembling is the inverse of decoding (R65). -/
def encode : Instr → Word
  | .cls => 0x00E0#16
  | .ret => 0x00EE#16
  | .halt => 0x00FD#16
  | .jp addr => 0x1#4 ++ addr
  | .call addr => 0x2#4 ++ addr
  | .unknown raw => raw

/-- The two bytes of an instruction in memory order, high byte first (R42, R64). -/
def encodeBytes (i : Instr) : List Byte := [hiByte (encode i), loByte (encode i)]

/-- Every decoded variant exposes all the views of its word (R56). -/
def Instr.views (i : Instr) : FieldViews := fieldViews (encode i)

/-! ## The opcode map as rows of match and mask (R59) -/

/-- One row of the opcode map that has a pattern; `Unknown` is the default and has none. -/
structure OpcodeRow where
  mnemonic : String
  pattern : Word
  mask : Word
  deriving DecidableEq, Repr

/-- A word matches a row when it equals the pattern under the mask (R59). -/
def OpcodeRow.covers (r : OpcodeRow) (w : Word) : Bool := (w &&& r.mask) == r.pattern

/-- `CLS`: the word 0x00E0. -/
def clsRow : OpcodeRow := ⟨"CLS", 0x00E0#16, 0xFFFF#16⟩

/-- `RET`: the word 0x00EE. -/
def retRow : OpcodeRow := ⟨"RET", 0x00EE#16, 0xFFFF#16⟩

/-- `HALT`: the word 0x00FD. -/
def haltRow : OpcodeRow := ⟨"HALT", 0x00FD#16, 0xFFFF#16⟩

/-- `JP nnn`: the words 0x1nnn. -/
def jpRow : OpcodeRow := ⟨"JP", 0x1000#16, 0xF000#16⟩

/-- `CALL nnn`: the words 0x2nnn. -/
def callRow : OpcodeRow := ⟨"CALL", 0x2000#16, 0xF000#16⟩

/-- The five patterned rows of the opcode map (R59). -/
def opcodeRows : List OpcodeRow := [clsRow, retRow, haltRow, jpRow, callRow]

/-- The row of the opcode map an instruction belongs to; `Unknown` is the default row (R59). -/
def Instr.row : Instr → Option OpcodeRow
  | .cls => some clsRow
  | .ret => some retRow
  | .halt => some haltRow
  | .jp _ => some jpRow
  | .call _ => some callRow
  | .unknown _ => none

/-! ## Assembler statements (R64, R65) -/

/-- One line of assembly as written: operands are numbers, not yet checked for size (R64). -/
inductive AsmLine where
  | cls
  | ret
  | halt
  | jp (nnn : Nat)
  | call (nnn : Nat)
  | dw (h : Nat)
  deriving DecidableEq, Repr

/-- Why a line does not assemble. -/
inductive AsmError where
  /-- The operand does not fit its field: "an assembly error, not a truncation" (R64). -/
  | operandTooLarge
  deriving DecidableEq, Repr

/-- The word of one line of assembly (R64, R65). -/
def assemble : AsmLine → Except AsmError Word
  | .cls => .ok 0x00E0#16
  | .ret => .ok 0x00EE#16
  | .halt => .ok 0x00FD#16
  | .jp nnn => if nnn ≤ 0xFFF then .ok (0x1000#16 ||| BitVec.ofNat 16 nnn) else .error .operandTooLarge
  | .call nnn => if nnn ≤ 0xFFF then .ok (0x2000#16 ||| BitVec.ofNat 16 nnn) else .error .operandTooLarge
  | .dw h => if h ≤ 0xFFFF then .ok (BitVec.ofNat 16 h) else .error .operandTooLarge

/-- The line of assembly that stands for a word: `DW` writes an `Unknown` word (R64). -/
def disassemble (w : Word) : AsmLine :=
  match decodeWord w with
  | .cls => .cls
  | .ret => .ret
  | .halt => .halt
  | .jp addr => .jp addr.toNat
  | .call addr => .call addr.toNat
  | .unknown raw => .dw raw.toNat

/-! ## The table's numbering (log entry 21) -/

/-- The bytes in memory order of a table word: `w`'s low `nbits` bits, the rest zero, as one 16-bit
word stored high byte first. -/
def tableWordBytes (nbits w : Nat) : List Byte :=
  let word : Word := BitVec.ofNat 16 (w % 2 ^ nbits)
  [hiByte word, loByte word]

/-- What the decoder reads from a table word. No row is longer than one 16-bit word (R54). -/
def decodeTableWord (nbits w : Nat) : Option Instr :=
  if nbits ≤ 16 then
    match decode (tableWordBytes nbits w) with
    | .ok (i, _) => some i
    | .error _ => none
  else none

end Sys2Proof
end

