-- ==== Sys2Proof/Machine/State.lean ====
section
/-! DEFINITION. The state of one core instance (spec/10_state.md R11) with the output port of the
core beside it, the reasons a step can stop, and the state after construction (R30, R101). -/

namespace Sys2Proof.Machine

/-- Memory as the bytes that differ from the construction contents: `(address, byte)` cells with
strictly rising addresses (log entry 18). `Memory.read` and `Memory.wf` are in Machine/Memory.lean. -/
abbrev Memory := List Host.Cell

/-- The status a cycle returns when its instruction completed (R72). -/
inductive Completion where
  /-- `Continue`: the host may call `cycle()` again. -/
  | continued
  /-- `Halted`: a HALT instruction executed, the terminal success status. -/
  | halted
  deriving DecidableEq, Repr

/-- One request on the display port: `clear()` is the only one this hardware sends (R95, R96). -/
inductive DisplayRequest where
  | clear
  deriving DecidableEq, Repr

/-- The architectural state of R11, and the two outputs of the core that `Host.Outcome.next` has no
other place for: `display` and `lastStatus`. No instruction reads either output. -/
structure State where
  /-- The 4096-byte memory (R31). -/
  mem : Memory
  /-- General registers V0..VF (R13). -/
  v : Vector Byte 16
  /-- The index register I (R17). -/
  i : Word
  /-- The program counter (R18). -/
  pc : Word
  /-- The sixteen call-stack slots (R22). -/
  stack : Vector Word 16
  /-- SP, the number of occupied slots, 0..16 (R22, R23). -/
  sp : Fin 17
  /-- `last_word`: the word of the last cycle that completed without a fault (R28). -/
  lastWord : Word
  /-- The output trace of the display port, in execution order (R95; log entry 7). -/
  display : List DisplayRequest
  /-- The model's own record of the status the last completed cycle returned (R72; log entry 6). -/
  lastStatus : Completion
  deriving DecidableEq, Repr

/-- The fault taxonomy (R85). A fault is returned to the host and changes no state (R73, R86). -/
inductive Fault where
  /-- A byte access above 0xFFF: raised by the fetch of every cycle, `MemRead` and `MemWrite` (R34,
  R35, R67). Safe: it is the fault the spec gives. -/
  | memoryOutOfBounds
  /-- `Push` with SP = 16: raised by CALL (R24, R81). Safe: it is the fault the spec gives. -/
  | stackOverflow
  /-- `Pop` with SP = 0: raised by RET (R25, R79). Safe: it is the fault the spec gives. -/
  | stackUnderflow
  /-- The fetched word decodes to `Unknown`: raised by the unknown handler with that word (R84).
  Safe: it is the fault the spec gives. -/
  | unimplementedOpcode (raw : Word)
  /-- `load` given more than 3584 bytes: raised by `load` alone, never by a cycle (R46, R90). Safe:
  it is the fault the spec gives. -/
  | programTooLarge
  deriving DecidableEq, Repr

/-- Reasons the model gives an instruction no meaning. -/
inductive Refusal where
  /-- An instruction without a meaning yet, by its mnemonic: raised by a refused arm of `exec`; no arm
  is refused in this model. Safe: the model stops where the hardware goes on. -/
  | notModelled (mnemonic : String)
  deriving DecidableEq, Repr

/-- The state right after construction (R30, R101): PC at 0x200, everything else zero, memory at its
construction contents (font table and zeros), no request sent on the display port. `lastStatus` is
the model's own choice (log entry 6). -/
def State.reset : State where
  mem := []
  v := Vector.replicate 16 0x00#8
  i := 0x0000#16
  pc := BitVec.ofNat 16 Config.progBase
  stack := Vector.replicate 16 0x0000#16
  sp := 0
  lastWord := 0x0000#16
  display := []
  lastStatus := .continued

end Sys2Proof.Machine
end

