-- ==== Sys2Proof/Machine/Memory.lean ====
section
/-! DEFINITION. The memory subsystem (spec/20_memory.md): its construction contents, the byte array
as canonical data, and the checked byte accessors `MemRead` and `MemWrite`. -/

namespace Sys2Proof.Machine

/-! ## Construction contents (R37, R38, R39) -/

/-- The glyphs of the hex digits 0–F in order, five row bytes each, top row first (R39; log
entry 3). -/
def glyphs : List (List Byte) :=
  [[0xF0#8, 0x90#8, 0x90#8, 0x90#8, 0xF0#8],
   [0x20#8, 0x60#8, 0x20#8, 0x20#8, 0x70#8],
   [0xF0#8, 0x10#8, 0xF0#8, 0x80#8, 0xF0#8],
   [0xF0#8, 0x10#8, 0xF0#8, 0x10#8, 0xF0#8],
   [0x90#8, 0x90#8, 0xF0#8, 0x10#8, 0x10#8],
   [0xF0#8, 0x80#8, 0xF0#8, 0x10#8, 0xF0#8],
   [0xF0#8, 0x80#8, 0xF0#8, 0x90#8, 0xF0#8],
   [0xF0#8, 0x10#8, 0x20#8, 0x40#8, 0x40#8],
   [0xF0#8, 0x90#8, 0xF0#8, 0x90#8, 0xF0#8],
   [0xF0#8, 0x90#8, 0xF0#8, 0x10#8, 0xF0#8],
   [0xF0#8, 0x90#8, 0xF0#8, 0x90#8, 0x90#8],
   [0xE0#8, 0x90#8, 0xE0#8, 0x90#8, 0xE0#8],
   [0xF0#8, 0x80#8, 0x80#8, 0x80#8, 0xF0#8],
   [0xE0#8, 0x90#8, 0x90#8, 0x90#8, 0xE0#8],
   [0xF0#8, 0x80#8, 0xF0#8, 0x80#8, 0xF0#8],
   [0xF0#8, 0x80#8, 0xF0#8, 0x80#8, 0x80#8]]

/-- The font table: the sixteen glyphs in digit order, 80 bytes (R38, R39). -/
def fontTable : List Byte := glyphs.flatten

/-- The byte at an address right after construction, for a font table at `fontBase`: the font, and
0x00 everywhere else (R30, R38, R101). -/
def constructionByte (fontBase addr : Nat) : Byte :=
  if fontBase ≤ addr then fontTable.getD (addr - fontBase) 0x00#8 else 0x00#8

/-- What an address that memory does not list reads as: its construction contents, with the font at
FONT_BASE (R30; log entry 18). -/
def unlistedByte (addr : Nat) : Byte := constructionByte Config.fontBase addr

/-! ## The byte array as canonical data -/

/-- The byte held at an address (`mem[addr]`): the listed one, else the construction contents. -/
def Memory.read : Memory → Nat → Byte
  | [], addr => unlistedByte addr
  | (a, b) :: rest, addr => if a = addr then b else Memory.read rest addr

/-- Set the byte at one address (`mem[addr] <- v`), keeping the canonical form. -/
def Memory.write : Memory → Nat → Byte → Memory
  | [], addr, v => if v = unlistedByte addr then [] else [(addr, v)]
  | (a, b) :: rest, addr, v =>
    if addr < a then
      if v = unlistedByte addr then (a, b) :: rest else (addr, v) :: (a, b) :: rest
    else if addr = a then
      if v = unlistedByte addr then rest else (addr, v) :: rest
    else (a, b) :: Memory.write rest addr v

/-- Cells that all lie at `lo` or above in the address space, with strictly rising addresses, none
equal to what its address reads as unlisted. -/
def Memory.wfFrom : Nat → Memory → Bool
  | _, [] => true
  | lo, (a, b) :: rest =>
    decide (lo ≤ a) && decide (a ≤ Config.addrMax) && decide (b ≠ unlistedByte a)
      && Memory.wfFrom (a + 1) rest

/-- The canonical form: equal memories are equal data. -/
def Memory.wf (m : Memory) : Bool := Memory.wfFrom 0 m

/-! ## The checked accessors (R33, R34, R35) -/

/-- `MemRead(addr, 1)` (R34). -/
def memRead (m : Memory) (addr : Nat) : Except Fault Byte :=
  if addr > Config.addrMax then .error .memoryOutOfBounds else .ok (Memory.read m addr)

/-- `MemWrite(addr, 1, v)` (R35). -/
def memWrite (m : Memory) (addr : Nat) (v : Byte) : Except Fault Memory :=
  if addr > Config.addrMax then .error .memoryOutOfBounds else .ok (Memory.write m addr v)

/-- A run of `MemWrite`s at consecutive addresses, stopping at the first fault (the loop of R45). -/
def memWriteBytes (m : Memory) (addr : Nat) : List Byte → Except Fault Memory
  | [] => .ok m
  | b :: rest =>
    match memWrite m addr b with
    | .error k => .error k
    | .ok m' => memWriteBytes m' (addr + 1) rest

end Sys2Proof.Machine
end

