-- ==== Sys2Proof/Machine/Operands.lean ====
section
/-! DEFINITION. Operand assembly (spec/30_encoding.md R57): the address operand is the only operand
an instruction in scope uses. The field views an operand is cut from are in Decode.lean. -/

namespace Sys2Proof.Machine

/-- `addr = zext_16(w[11:0])`: zero-extended from 12 to 16 bits, not scaled and not PC-relative
(R57). -/
def addressOperand (nnn : Addr12) : Word := nnn.zeroExtend 16

end Sys2Proof.Machine
end

