-- ==== Sys2Proof/Machine/Ops.lean ====
section
/-! DEFINITION. The operations every meaning is written over: register access, the call stack, the
display port, the fetch, and how a handler's result becomes the outcome of an instruction. The
hardware takes no exception inside the core: a fault is returned to the host with the state
unchanged, and no instruction returns from one (spec/60_exceptions.md R86, R92). -/

namespace Sys2Proof.Machine

/-! ## Registers (R14, R15, R17, R19) -/

/-- `V[i]`: every 4-bit index names a register (R14, R15). -/
def readV (s : State) (idx : Fin 16) : Byte := s.v[idx.val]

/-- `V[i] <- v` (R15). -/
def writeV (s : State) (idx : Fin 16) (b : Byte) : State := { s with v := s.v.set idx.val b }

/-- `I` (R17). -/
def readI (s : State) : Word := s.i

/-- `I <- v`: any u16 may be held (R17). -/
def writeI (s : State) (w : Word) : State := { s with i := w }

/-- `pc`: during a cycle, the address of the instruction being executed (R18, R19). -/
def readPc (s : State) : Word := s.pc

/-- `pc <- target` (R19). -/
def writePc (s : State) (target : Word) : State := { s with pc := target }

/-! ## The call stack (R22 to R26) -/

/-- `Push(a)` (R24). -/
def push (a : Word) (s : State) : Except Fault State :=
  if h : s.sp.val = 16 then .error .stackOverflow
  else .ok { s with
    stack := s.stack.set s.sp.val a (by omega)
    sp := ⟨s.sp.val + 1, by omega⟩ }

/-- `Pop()`: the popped slot keeps its value (R25). -/
def pop (s : State) : Except Fault (Word × State) :=
  if h : s.sp.val = 0 then .error .stackUnderflow
  else .ok (s.stack[s.sp.val - 1]'(by omega), { s with sp := ⟨s.sp.val - 1, by omega⟩ })

/-- Where RET resumes: after the CALL whose address was popped, or at it under the literal reading
`skipsCall = false` (R79, decision D5; log entry 2). -/
def returnTarget (skipsCall : Bool) (popped : Word) : Word :=
  if skipsCall then popped + 2#16 else popped

/-! ## The display port (R95) -/

/-- `emit DisplayClear`: one `clear()` request at the end of the output trace (R10, R95). -/
def emitDisplayClear (s : State) : State := { s with display := s.display ++ [.clear] }

/-! ## From a handler to the outcome of an instruction (R66 steps 3 and 4, R69 to R71) -/

/-- What a handler that raises no fault gives the cycle driver: the state it leaves, the status it
returns, and the per-cycle flag `explicit_pc` (R69, R70). -/
structure Handled where
  state : State
  status : Completion
  explicitPc : Bool

/-- The generic advance `pc <- (pc + 2) mod 2^16` (R71). -/
def advance (s : State) : State := writePc s (readPc s + BitVec.ofNat 16 Config.instrBytes)

/-- Apply the generic advance when the handler returned `Continue` and did not set PC itself (R71). -/
def Handled.advanced (r : Handled) : State :=
  if r.status = .continued ∧ r.explicitPc = false then advance r.state else r.state

/-- The outcome of an instruction from its handler: a raised fault ends the cycle (R73); else the
generic advance (R71), with the status reported to the host (R72; log entry 17). -/
def finish : Except Fault Handled → Host.Outcome State Fault Refusal
  | .error k => .fault k
  | .ok r => .next { r.advanced with lastStatus := r.status }

/-! ## Fetch and commit (R66 steps 1 and 5, R67, R74) -/

/-- The fetch: the bound test in exact arithmetic before any byte is read, then two `MemRead`s,
high byte first (R67, R55; log entry 12). -/
def fetch (s : State) : Except Fault Word :=
  if (readPc s).toNat + 1 > Config.addrMax then .error .memoryOutOfBounds
  else
    match memRead s.mem (readPc s).toNat, memRead s.mem ((readPc s).toNat + 1) with
    | .ok hi, .ok lo => .ok (wordOfBytes hi lo)
    | .error k, _ => .error k
    | .ok _, .error k => .error k

/-- `last_word <- w`, the last write of a cycle that completes; a faulting cycle writes nothing
(R73, R74). -/
def commit (w : Word) : Host.Outcome State Fault Refusal → Host.Outcome State Fault Refusal
  | .next s => .next { s with lastWord := w }
  | .fault k => .fault k
  | .refused r => .refused r

end Sys2Proof.Machine
end

