-- ==== Sys2Proof/Machine/ControlFlow.lean ====
section
/-! DEFINITION. The control-transfer instructions (spec/42_control_flow.md). Each sets `explicit_pc`,
so the generic advance does not apply. -/

namespace Sys2Proof.Machine

/-- `handler(ReturnFromSubroutine)`, with the parameter RET_SKIPS_CALL (R79). -/
def handleRet (skipsCall : Bool) (s : State) : Except Fault Handled :=
  match pop s with
  | .error k => .error k
  | .ok (a, t) =>
    .ok { state := writePc t (returnTarget skipsCall a), status := .continued, explicitPc := true }

/-- `RET`: pop the call stack and resume after the CALL whose address it holds (R79). -/
def execRet (s : State) : Host.Outcome State Fault Refusal :=
  finish (handleRet Config.retSkipsCall s)

/-- `handler(Jump)` (R80). -/
def handleJp (addr : Addr12) (s : State) : Except Fault Handled :=
  .ok { state := writePc s (addressOperand addr), status := .continued, explicitPc := true }

/-- `JP nnn`: PC becomes the address operand (R80). -/
def execJp (addr : Addr12) (s : State) : Host.Outcome State Fault Refusal :=
  finish (handleJp addr s)

/-- `handler(CallSubroutine)` (R81): what is pushed is the address of the CALL itself (R18). -/
def handleCall (addr : Addr12) (s : State) : Except Fault Handled :=
  match push (readPc s) s with
  | .error k => .error k
  | .ok t =>
    .ok { state := writePc t (addressOperand addr), status := .continued, explicitPc := true }

/-- `CALL nnn`: push PC, then PC becomes the address operand (R81). -/
def execCall (addr : Addr12) (s : State) : Host.Outcome State Fault Refusal :=
  finish (handleCall addr s)

end Sys2Proof.Machine
end

