-- ==== Sys2Proof/Machine/Display.lean ====
section
/-! DEFINITION. The display instruction (spec/41_display.md), and the display surface as a function of
the port's output trace (spec/60_exceptions.md R95). -/

namespace Sys2Proof.Machine

/-! ## CLS (R78) -/

/-- `handler(ClearDisplay)` (R78). -/
def handleCls (s : State) : Except Fault Handled :=
  .ok { state := emitDisplayClear s, status := .continued, explicitPc := false }

/-- `CLS`: one clear request, then the generic advance (R78). -/
def execCls (s : State) : Host.Outcome State Fault Refusal := finish (handleCls s)

/-! ## The surface outside the core (R95; log entry 7) -/

/-- The pixel grid `px`, rows of pixels; its size is that of DISPLAY_H rows of DISPLAY_W pixels. -/
abbrev Surface := Vector (Vector Bool Config.displayW) Config.displayH

/-- What one request does to the surface: `clear()` sets every pixel to false (R95). -/
def DisplayRequest.apply : DisplayRequest → Surface → Surface
  | .clear, _ => Vector.replicate Config.displayH (Vector.replicate Config.displayW false)

/-- The surface after a trace of requests, from an initial surface that the spec leaves outside this
hardware (R95). -/
def surfaceAfter (px : Surface) (trace : List DisplayRequest) : Surface :=
  trace.foldl (fun p r => r.apply p) px

end Sys2Proof.Machine
end

