-- ==== Sys2Proof/Machine/System.lean ====
section
/-! DEFINITION. The system instructions (spec/43_system.md): HALT, and the default variant every
undefined word decodes to. -/

namespace Sys2Proof.Machine

/-- `handler(Halt)` (R83). -/
def handleHalt (s : State) : Except Fault Handled :=
  .ok { state := s, status := .halted, explicitPc := false }

/-- `HALT`: returns `Halted`; PC is not advanced (R83; log entry 10). -/
def execHalt (s : State) : Host.Outcome State Fault Refusal := finish (handleHalt s)

/-- `handler(Unknown)`: it raises `UnimplementedOpcode` with the whole word (R84). -/
def handleUnknown (raw : Word) (_ : State) : Except Fault Handled :=
  .error (.unimplementedOpcode raw)

/-- Every undefined word: the cycle ends in `Fault(UnimplementedOpcode)` (R84). -/
def execUnknown (raw : Word) (s : State) : Host.Outcome State Fault Refusal :=
  finish (handleUnknown raw s)

end Sys2Proof.Machine
end

