-- ==== Sys2Proof/Machine/Load.lean ====
section
/-! DEFINITION. The host operation `load` (spec/20_memory.md R45 to R48). -/

namespace Sys2Proof.Machine

/-- `load(bytes)`: install a program at 0x200 and reset PC; too large a program changes nothing
(R45, R46, R47). -/
def load (bytes : List Byte) (s : State) : Except Fault State :=
  if bytes.length > Config.progCapacity then .error .programTooLarge
  else
    match memWriteBytes s.mem Config.progBase bytes with
    | .error k => .error k
    | .ok m => .ok (writePc { s with mem := m } (BitVec.ofNat 16 Config.progBase))

/-- Where a table word is placed so that the next fetch reads it: at PC, or at 0x200 (as `load`
does) when PC is so high that no fetch succeeds (log entry 8). -/
def placementAddress (s : State) : Word :=
  if (readPc s).toNat + 1 > Config.addrMax then BitVec.ofNat 16 Config.progBase else readPc s

/-- Place an instruction's bytes where the next cycle fetches (log entry 8). -/
def placeAtFetch (bytes : List Byte) (s : State) : State :=
  let at0 := placementAddress s
  match memWriteBytes s.mem at0.toNat bytes with
  | .ok m => writePc { s with mem := m } at0
  | .error _ => s

end Sys2Proof.Machine
end

