-- ==== Sys2Proof/Machine/Step.lean ====
section
/-! DEFINITION. The one step of the machine, one call of `cycle()` (spec/40_cycle_driver.md R66). -/

namespace Sys2Proof.Machine

/-- One fetch–decode–execute step (R66): fetch, decode, the instruction (handler, generic advance and
status), and the commit of `last_word`. -/
def step (s : State) : Host.Outcome State Fault Refusal :=
  match fetch s with
  | .error k => .fault k
  | .ok w => commit w (exec (decodeWord w) s)

/-- `s` with a table word stored where the next cycle fetches (log entry 8). -/
def State.withFetchWord (s : State) (nbits w : Nat) : State :=
  placeAtFetch (tableWordBytes nbits w) s

end Sys2Proof.Machine
end

