-- ==== Sys2Proof/Machine/HostOps.lean ====
section
/-! DEFINITION. What the host can do to the core: construct, `load`, `cycle` with its status, the
read-out and the host's loop (spec/40_cycle_driver.md R72, R73; spec/70_reset_and_hazards.md R101 to
R110; spec/60_exceptions.md R85). -/

namespace Sys2Proof.Machine

/-! ## Status and fault codes (R72, R85; log entry 15) -/

/-- The status a cycle returns: `Continue`, `Halted` or `Fault(k)` (R72). -/
inductive Status where
  | completed (c : Completion)
  | fault (k : Fault)
  deriving DecidableEq, Repr

/-- Numeric fault codes, in the taxonomy's order (R85, decision D18). -/
def Fault.code : Fault → Nat
  | .memoryOutOfBounds => 1
  | .stackOverflow => 2
  | .stackUnderflow => 3
  | .unimplementedOpcode _ => 4
  | .programTooLarge => 5

/-- Numeric status codes (decision D19). -/
def Status.code : Status → Nat
  | .completed .continued => 0
  | .completed .halted => 1
  | .fault _ => 2

/-! ## `cycle()` as the host sees it -/

/-- The status an outcome returns to the host; a refusal of the model is no status of the hardware. -/
def statusOf : Host.Outcome State Fault Refusal → Option Status
  | .next t => some (.completed t.lastStatus)
  | .fault k => some (.fault k)
  | .refused _ => none

/-- The state after an outcome of a cycle begun in `s`: a cycle that faults leaves the whole state
exactly as it was (R73; log entry 5). -/
def stateAfter (s : State) : Host.Outcome State Fault Refusal → State
  | .next t => t
  | .fault _ => s
  | .refused _ => s

/-- `cycle()`: the status returned and the state left (R66, R72, R73). -/
def cycle (s : State) : Option Status × State := (statusOf (step s), stateAfter s (step s))

/-! ## Construction and read-out (R101, R110) -/

/-- `construct()`: a fresh instance; the only reset (R101, R102). -/
def construct : State := State.reset

/-- Everything the host may read between operations (R110): the record of R11, memory as the array
itself. -/
structure ReadOut where
  mem : List Byte
  v : List Byte
  i : Word
  pc : Word
  sp : Nat
  stack : List Word
  lastWord : Word
  deriving DecidableEq, Repr

/-- The read-out, which changes nothing and needs no bound check (R110). -/
def readOut (s : State) : ReadOut where
  mem := (List.range Config.memSize).map (Memory.read s.mem)
  v := s.v.toList
  i := s.i
  pc := s.pc
  sp := s.sp.val
  stack := s.stack.toList
  lastWord := s.lastWord

/-! ## Host operations on one instance, in the order the host makes them (R49, R109) -/

/-- A host operation on an existing instance (00_scope section 5). -/
inductive HostOp where
  | load (bytes : List Byte)
  | cycle
  | readOut
  deriving DecidableEq, Repr

/-- What the host gets back from an operation. -/
inductive HostReply where
  | loaded
  | loadFailed (k : Fault)
  | status (st : Option Status)
  | values (r : ReadOut)
  deriving DecidableEq, Repr

/-- One host operation: its reply and the state after it, complete before the next one (R49). -/
def HostOp.perform : HostOp → State → HostReply × State
  | .load bytes, s =>
    match Sys2Proof.Machine.load bytes s with
    | .ok t => (.loaded, t)
    | .error k => (.loadFailed k, s)
  | .cycle, s => (.status (Sys2Proof.Machine.cycle s).1, (Sys2Proof.Machine.cycle s).2)
  | .readOut, s => (.values (Sys2Proof.Machine.readOut s), s)

/-- The state after a sequence of host operations (R49). -/
def performAll (s : State) (ops : List HostOp) : State :=
  ops.foldl (fun t op => (op.perform t).2) s

/-! ## The host's loop (R108, R109) -/

/-- How a run of at most some number of cycles stands (R108). -/
inductive RunEnd where
  /-- The successful end, with the final state. -/
  | halted (final : State)
  /-- The failed end, with the pre-fault state, which is no final state. -/
  | faulted (k : Fault) (preFault : State)
  /-- The host stopped calling `cycle()` before a terminal status. -/
  | stopped (s : State)
  /-- The model gave an instruction no meaning; no run of this model ends so. -/
  | refused (r : Refusal) (s : State)
  deriving DecidableEq, Repr

/-- The host's loop for at most `n` cycles: it looks at the status each time and ends at the first
terminal one (R108, R109). -/
def hostLoop : Nat → State → RunEnd
  | 0, s => .stopped s
  | n + 1, s =>
    match step s with
    | .fault k => .faulted k s
    | .refused r => .refused r s
    | .next t =>
      match t.lastStatus with
      | .halted => .halted t
      | .continued => hostLoop n t

end Sys2Proof.Machine
end

