-- ==== Sys2Proof/Safety.lean ====
section
/-! DEFINITION. The invariants of the machine that claims use, each from a whole-machine rule of the
spec. -/

namespace Sys2Proof.Machine

/-- The reserved region 0x000–0x1FF holds its construction contents, the font table included: it is
never overwritten by a program (R40, R48). -/
def ReservedIntact (s : State) : Prop :=
  ∀ a, a < Config.progBase → Memory.read s.mem a = unlistedByte a

/-- PC is at most 0x1000, and every occupied stack slot holds the address of a CALL that was fetched,
at most 0xFFE (R21). -/
def PcBounded (s : State) : Prop :=
  s.pc.toNat ≤ 0x1000 ∧ ∀ k : Fin 16, k.val < s.sp.val → s.stack[k.val].toNat ≤ 0xFFE

/-- The registers no instruction of this hardware writes (R15, R17) hold their reset values (R30): I's is
the source's, V's 0x00 is the spec's decision D10 (log entry 4). -/
def DataRegistersAtReset (s : State) : Prop :=
  (∀ idx : Fin 16, readV s idx = 0x00#8) ∧ readI s = 0x0000#16

/-- What every step and every host operation keeps: canonical memory, an intact reserved region, the
bounds on PC and on return addresses. -/
structure Inv (s : State) : Prop where
  memWf : Memory.wf s.mem = true
  reserved : ReservedIntact s
  bounded : PcBounded s

end Sys2Proof.Machine
end

