-- ==== Sys2Proof/Certificates/Slice0/Obligations.lean ====
section
/-! DEFINITION. The statements for the provers, in the order of the spec's files: construction and
state, memory and load, decoding, the cycle, the instructions, faults and the host's loop. Where a
statement rests on one of the spec's own decisions D<n> (spec/92_eei_decisions.md), its docstring says
so: the source does not state that point. -/

open Sys2Proof Sys2Proof.Machine

/-! ## Construction and state -/

/-- R30, R101: the values after construction. PC, I and SP are the source's; V, the stack slots and
last_word are the spec's decisions D10, D11, D12 (log entry 4); the empty trace says that no request
has been sent. The model's own `lastStatus` is left out. -/
def Obligations.ConstructedStateHoldsResetValues : Prop :=
  construct.pc = 0x200#16 ∧ construct.i = 0x0000#16 ∧ construct.sp.val = 0 ∧
    (∀ idx : Fin 16, readV construct idx = 0x00#8) ∧
    (∀ k : Fin 16, construct.stack[k.val] = 0x0000#16) ∧
    construct.lastWord = 0x0000#16 ∧ construct.display = []

/-- R38, R39, R101: after construction the font is at 0x000–0x04F and every other byte is 0x00. The
font's bytes and base and the zeros are the spec's decisions D7, D8, D9 (log entries 3, 4). -/
def Obligations.ConstructedMemoryHoldsFontThenZeros : Prop :=
  (List.range 80).map (Memory.read construct.mem) =
      [0xF0#8, 0x90#8, 0x90#8, 0x90#8, 0xF0#8] ++ [0x20#8, 0x60#8, 0x20#8, 0x20#8, 0x70#8] ++
      [0xF0#8, 0x10#8, 0xF0#8, 0x80#8, 0xF0#8] ++ [0xF0#8, 0x10#8, 0xF0#8, 0x10#8, 0xF0#8] ++
      [0x90#8, 0x90#8, 0xF0#8, 0x10#8, 0x10#8] ++ [0xF0#8, 0x80#8, 0xF0#8, 0x10#8, 0xF0#8] ++
      [0xF0#8, 0x80#8, 0xF0#8, 0x90#8, 0xF0#8] ++ [0xF0#8, 0x10#8, 0x20#8, 0x40#8, 0x40#8] ++
      [0xF0#8, 0x90#8, 0xF0#8, 0x90#8, 0xF0#8] ++ [0xF0#8, 0x90#8, 0xF0#8, 0x10#8, 0xF0#8] ++
      [0xF0#8, 0x90#8, 0xF0#8, 0x90#8, 0x90#8] ++ [0xE0#8, 0x90#8, 0xE0#8, 0x90#8, 0xE0#8] ++
      [0xF0#8, 0x80#8, 0x80#8, 0x80#8, 0xF0#8] ++ [0xE0#8, 0x90#8, 0x90#8, 0x90#8, 0xE0#8] ++
      [0xF0#8, 0x80#8, 0xF0#8, 0x80#8, 0xF0#8] ++ [0xF0#8, 0x80#8, 0xF0#8, 0x80#8, 0x80#8] ∧
    ∀ a, 80 ≤ a → a ≤ 0xFFF → Memory.read construct.mem a = 0x00#8

/-- The invariant of `StepKeepsInvariant` holds after construction (R21, R23, R40), and V and I hold their
reset values (R30): I's is the source's, V's 0x00 is the spec's decision D10 (log entry 4). Canonical
memory is the model's form (log entry 18); the reserved region's contents are decisions D7, D8, D9
(log entries 3, 4). -/
def Obligations.ConstructedStateSatisfiesInvariant : Prop :=
  Inv construct ∧ DataRegistersAtReset construct

/-- R13 to R15, R17: a register write is read back, touches no other register and nothing else; I holds
any 16-bit value. -/
def Obligations.RegisterWriteChangesOnlyThatRegister : Prop :=
  ∀ (s : State) (idx : Fin 16) (b : Byte) (w : Word),
    readV (writeV s idx b) idx = b ∧
      (∀ other : Fin 16, other ≠ idx → readV (writeV s idx b) other = readV s other) ∧
      writeV s idx b = { s with v := (writeV s idx b).v } ∧
      readI (writeI s w) = w ∧ writeI s w = { s with i := w }

/-- R24, whole: `Push` faults on a full stack, else stores at slot SP and then increments SP. -/
def Obligations.PushStoresAtSpThenIncrementsOrOverflows : Prop :=
  ∀ (a : Word) (s : State),
    (s.sp.val = 16 → push a s = .error .stackOverflow) ∧
      (s.sp.val ≠ 16 → ∃ t, push a s = .ok t ∧ t.sp.val = s.sp.val + 1 ∧
        (∀ k : Fin 16, t.stack[k.val] = if k.val = s.sp.val then a else s.stack[k.val]) ∧
        t = { s with stack := t.stack, sp := t.sp })

/-- R25, whole: `Pop` faults on an empty stack, else decrements SP and returns the slot at the new SP,
which keeps its value until a push overwrites it. -/
def Obligations.PopReturnsTopSlotOrUnderflows : Prop :=
  ∀ s : State,
    (s.sp.val = 0 → pop s = .error .stackUnderflow) ∧
      (s.sp.val ≠ 0 → ∃ a t, pop s = .ok (a, t) ∧ t.sp.val + 1 = s.sp.val ∧
        (∀ k : Fin 16, k.val = t.sp.val → a = s.stack[k.val]) ∧ t = { s with sp := t.sp })

/-- R26, whole: sixteen pushes from an empty stack fill all sixteen slots in order, and the next push
faults. -/
def Obligations.SixteenPushesFillTheStackAndTheNextFaults : Prop :=
  ∀ (s : State) (as : List Word) (hlen : as.length = 16), s.sp.val = 0 →
    ∃ t, as.foldlM (fun u a => push a u) s = Except.ok t ∧ t.sp.val = 16 ∧
      (∀ k : Fin 16, t.stack[k.val] = as[k.val]) ∧
      ∀ a, push a t = .error .stackOverflow

/-! ## Memory and load -/

/-- R33: an address is valid exactly up to 0xFFF; above it every access faults and nothing wraps. -/
def Obligations.AccessAboveTopOfMemoryFaults : Prop :=
  ∀ (m : Memory) (addr : Nat) (v : Byte),
    (addr ≤ 0xFFF → memRead m addr = .ok (Memory.read m addr) ∧ ∃ m', memWrite m addr v = .ok m') ∧
      (0xFFF < addr → memRead m addr = .error .memoryOutOfBounds ∧
        memWrite m addr v = .error .memoryOutOfBounds)

/-- R35 on canonical memory: `MemWrite` faults above 0xFFF, else stores the byte and leaves every other
byte alone. That the memory stays canonical is the model's own form (log entry 18, DESIGN CHOICE), no
rule of the spec. -/
def Obligations.MemWriteStoresOneByteAndNothingElse : Prop :=
  ∀ (m : Memory) (addr : Nat) (v : Byte), Memory.wf m = true →
    (0xFFF < addr → memWrite m addr v = .error .memoryOutOfBounds) ∧
      (addr ≤ 0xFFF → ∃ m', memWrite m addr v = .ok m' ∧ Memory.wf m' = true ∧
        Memory.read m' addr = v ∧ ∀ a, a ≠ addr → Memory.read m' a = Memory.read m a)

/-- Two canonical memories that hold the same 4096 bytes (R31) are the same data. The canonical form is
the model's (log entry 18). -/
def Obligations.CanonicalMemoriesThatReadAlikeAreEqual : Prop :=
  ∀ m m' : Memory, Memory.wf m = true → Memory.wf m' = true →
    (∀ a, a ≤ 0xFFF → Memory.read m a = Memory.read m' a) → m = m'

/-- R45 and R46, whole, on canonical memory: `load` fails exactly for more than 3584 bytes; else it
stores byte k at 0x200 + k and resets PC. A load of no byte changes PC alone. -/
def Obligations.LoadInstallsProgramExactlyWhenItFits : Prop :=
  ∀ (s : State) (bytes : List Byte), Memory.wf s.mem = true →
    (load bytes s = .error .programTooLarge ↔ 3584 < bytes.length) ∧
      (bytes.length ≤ 3584 → ∃ t, load bytes s = .ok t ∧ t.pc = 0x200#16 ∧
        ∀ (k : Nat) (hk : k < bytes.length), Memory.read t.mem (0x200 + k) = bytes[k]) ∧
      load [] s = .ok { s with pc := 0x200#16 }

/-- R47, R48 (decisions D13, D16; log entry 16): a load that succeeds changes the program's bytes and
PC, nothing else: every other byte, the reserved region among them, and every other field keep. A load
that fails leaves the state as it was. -/
def Obligations.LoadChangesOnlyProgramBytesAndPc : Prop :=
  ∀ (s : State) (bytes : List Byte), Memory.wf s.mem = true →
    (∀ t, load bytes s = .ok t →
      t = { s with mem := t.mem, pc := t.pc } ∧
        ∀ a, (a < 0x200 ∨ 0x200 + bytes.length ≤ a) → Memory.read t.mem a = Memory.read s.mem a) ∧
      (3584 < bytes.length →
        (HostOp.load bytes).perform s = (.loadFailed .programTooLarge, s))

/-- The source's round trip (95 S9; R45, R52, R55): after loading four bytes, the words fetched at
0x200 and 0x202 are those bytes, high byte first. -/
def Obligations.LoadedBytesAreFetchedAsBigEndianWords : Prop :=
  ∀ (s : State) (b0 b1 b2 b3 : Byte), Memory.wf s.mem = true →
    ∃ t, load [b0, b1, b2, b3] s = .ok t ∧
      (∃ w, fetch t = .ok w ∧ w.toNat = b0.toNat * 256 + b1.toNat) ∧
      (∃ w, fetch (writePc t 0x202#16) = .ok w ∧ w.toNat = b2.toNat * 256 + b3.toNat)

/-! ## Decoding -/

/-- R56, whole: the six views are the stated bits of the word, and every decoded variant exposes
them. -/
def Obligations.EveryVariantExposesTheSixFieldViews : Prop :=
  ∀ w : Word,
    (decodeWord w).views.id.toNat = w.toNat / 4096 ∧
      (decodeWord w).views.nnn.toNat = w.toNat % 4096 ∧
      (decodeWord w).views.x.toNat = w.toNat / 256 % 16 ∧
      (decodeWord w).views.y.toNat = w.toNat / 16 % 16 ∧
      (decodeWord w).views.n.toNat = w.toNat % 16 ∧
      (decodeWord w).views.kk.toNat = w.toNat % 256

/-- Words of spec/95_test_vectors.md section 2.1, one or more per family. The words of CLS, RET and
HALT are the spec's decisions D1, D2, D3 (log entry 1). -/
def Obligations.SpecWordsDecodeToTheirVariants : Prop :=
  decodeWord 0b0000000011100000#16 = .cls ∧
    decodeWord 0b0000000011101110#16 = .ret ∧
    decodeWord 0b0000000011111101#16 = .halt ∧
    decodeWord 0b0001000011100000#16 = .jp 0x0E0#12 ∧
    decodeWord 0b0001111111111111#16 = .jp 0xFFF#12 ∧
    decodeWord 0b0010000000000101#16 = .call 0x005#12 ∧
    decodeWord 0b0000000111101110#16 = .unknown 0x01EE#16 ∧
    decodeWord 0b0101000000000000#16 = .unknown 0x5000#16

/-- R59 (decisions D1 to D4; log entries 1, 9): a word decodes to a variant exactly when it matches
that variant's row under the mask, with the address its low twelve bits; `Unknown` is every word that
matches no row, kept whole. -/
def Obligations.DecoderFollowsTheOpcodeMap : Prop :=
  ∀ w : Word,
    (decodeWord w = .cls ↔ w &&& 0xFFFF#16 = 0x00E0#16) ∧
      (decodeWord w = .ret ↔ w &&& 0xFFFF#16 = 0x00EE#16) ∧
      (decodeWord w = .halt ↔ w &&& 0xFFFF#16 = 0x00FD#16) ∧
      (∀ addr : Addr12, decodeWord w = .jp addr ↔
        w &&& 0xF000#16 = 0x1000#16 ∧ addr.toNat = w.toNat % 4096) ∧
      (∀ addr : Addr12, decodeWord w = .call addr ↔
        w &&& 0xF000#16 = 0x2000#16 ∧ addr.toNat = w.toNat % 4096) ∧
      (∀ raw : Word, decodeWord w = .unknown raw ↔
        raw = w ∧ ∀ r ∈ opcodeRows, r.covers w = false)

/-- R60: no word matches two of the five rows, and distinct words decode to distinct variants. -/
def Obligations.OpcodeRowsAreDisjointAndDecodingIsInjective : Prop :=
  (∀ (w : Word) (r r' : OpcodeRow), r ∈ opcodeRows → r' ∈ opcodeRows →
      r.covers w = true → r'.covers w = true → r = r') ∧
    ∀ w w' : Word, decodeWord w = decodeWord w' → w = w'

/-- R61 (decision D4; log entry 9): the `Unknown` space is 0x0000–0x0FFF less the three fixed words,
and 0x3000–0xFFFF. -/
def Obligations.UnknownSpaceIsTheListedRanges : Prop :=
  ∀ w : Word, decodeWord w = .unknown w ↔
    (w.toNat ≤ 0x0FFF ∧ w ≠ 0x00E0#16 ∧ w ≠ 0x00EE#16 ∧ w ≠ 0x00FD#16) ∨ 0x3000 ≤ w.toNat

/-- R65 over all six families: decoding the encoding of a well-formed instruction gives it back, at
every operand value; from its bytes too, with what follows them left over. -/
def Obligations.DecodeOfEncodeIsTheInstruction : Prop :=
  ∀ (i : Instr) (rest : List Byte), i.wf = true →
    decodeWord (encode i) = i ∧ decode (encodeBytes i ++ rest) = .ok (i, rest)

/-- R58, R60, R65: every word decodes to a well-formed instruction whose encoding is that word. -/
def Obligations.EncodeOfDecodeIsTheWord : Prop :=
  ∀ w : Word, (decodeWord w).wf = true ∧ encode (decodeWord w) = w

/-- R64, R65 (decision D20): assembling a disassembled word gives the word; a line that assembles is
the disassembly of its word, unless it writes a defined word by `DW`; an operand over twelve bits is
an error, not a truncation. -/
def Obligations.AssemblingInvertsDisassembling : Prop :=
  (∀ w : Word, assemble (disassemble w) = .ok w) ∧
    (∀ (l : AsmLine) (w : Word), assemble l = .ok w → (∀ h, l ≠ .dw h) → disassemble w = l) ∧
    (∀ nnn : Nat, 0xFFF < nnn → assemble (.jp nnn) = .error .operandTooLarge ∧
      assemble (.call nnn) = .error .operandTooLarge) ∧
    ∀ h : Nat, h ≤ 0xFFFF → assemble (.dw h) = .ok (BitVec.ofNat 16 h)

/-- R54, R55: an instruction is the first two bytes, high byte first, whatever follows them; fewer
than two bytes are rejected by name; a table word is read as those two bytes (log entry 21). -/
def Obligations.DecodeTakesTwoBytesHighByteFirst : Prop :=
  (∀ (hi lo : Byte) (rest : List Byte),
      decode (hi :: lo :: rest) = .ok (decodeWord (BitVec.ofNat 16 (hi.toNat * 256 + lo.toNat)), rest)) ∧
    (∀ b : Byte, decode [b] = .error .truncated) ∧ decode [] = .error .truncated ∧
    ∀ w : Nat, w < 65536 → decodeTableWord 16 w = some (decodeWord (BitVec.ofNat 16 w))

/-! ## The cycle -/

/-- R55, whole: the fetched word has the byte at PC as its high byte and the byte at PC + 1 as its low
byte; the bytes 0xAA, 0xFF give 0xAAFF. -/
def Obligations.FetchedWordIsTheTwoBytesAtPc : Prop :=
  (∀ s : State, s.pc.toNat + 1 ≤ 0xFFF →
      ∃ w, fetch s = .ok w ∧ hiByte w = Memory.read s.mem s.pc.toNat ∧
        loByte w = Memory.read s.mem (s.pc.toNat + 1)) ∧
    wordOfBytes 0xAA#8 0xFF#8 = 0xAAFF#16

/-- R67 (decision D15; log entry 12): every PC from 0xFFF up faults in the fetch, in exact arithmetic.
That the state stays is R73 (decision D13; log entry 5). -/
def Obligations.FetchAtTopOfMemoryFaults : Prop :=
  ∀ s : State, 0xFFF ≤ s.pc.toNat →
    step s = .fault .memoryOutOfBounds ∧ cycle s = (some (.fault .memoryOutOfBounds), s)

/-- R66: when the bytes at PC decode to `i`, the step is `exec i` with one thing added, the commit of
the fetched word to last_word (decision D12; log entry 11) when the instruction completes. What stands
in `exec` and what in `step` is the model's split (log entry 17). -/
def Obligations.StepRunsTheDecodedInstruction : Prop :=
  ∀ (s : State) (i : Instr), s.pc.toNat + 1 ≤ 0xFFF →
    decode [Memory.read s.mem s.pc.toNat, Memory.read s.mem (s.pc.toNat + 1)] = .ok (i, []) →
    (∀ t, exec i s = .next t → step s = .next { t with lastWord := encode i }) ∧
      (∀ k, exec i s = .fault k → step s = .fault k) ∧
      (∀ r, exec i s = .refused r → step s = .refused r)

/-- R73, R88, R90 (decisions D13, D15, D27): which fault a cycle raises, exactly when; it never raises
`ProgramTooLarge`, and the model never refuses. -/
def Obligations.CycleFaultsExactlyWhenTheSpecSays : Prop :=
  ∀ s : State,
    (step s = .fault .memoryOutOfBounds ↔ 0xFFF ≤ s.pc.toNat) ∧
      (step s = .fault .stackUnderflow ↔ fetch s = .ok 0x00EE#16 ∧ s.sp.val = 0) ∧
      (step s = .fault .stackOverflow ↔
        ∃ w, fetch s = .ok w ∧ w.toNat / 4096 = 2 ∧ s.sp.val = 16) ∧
      (∀ raw, step s = .fault (.unimplementedOpcode raw) ↔
        fetch s = .ok raw ∧ inUnknownSpace raw = true) ∧
      step s ≠ .fault .programTooLarge ∧ ∀ r, step s ≠ .refused r

/-- R72, R73: a cycle returns `Continue`, `Halted` or `Fault`; `Halted` exactly for the HALT word
(decision D3; log entry 1), never `ProgramTooLarge` (decision D27); a fault leaves the state as it was
(decision D13; log entry 5). -/
def Obligations.CycleReturnsOneOfThreeStatuses : Prop :=
  ∀ s : State,
    ((cycle s).1 = some (.completed .continued) ∨ (cycle s).1 = some (.completed .halted) ∨
        ∃ k, (cycle s).1 = some (.fault k) ∧ k ≠ .programTooLarge ∧ (cycle s).2 = s) ∧
      ((cycle s).1 = some (.completed .halted) ↔ fetch s = .ok 0x00FD#16)

/-- R77 (decisions D6, D13, D17; log entries 5, 10): nothing is latched. After `Halted` or a fault the
next cycle gives the same status and changes nothing. -/
def Obligations.TerminalCyclesRepeat : Prop :=
  ∀ s : State,
    ((cycle s).1 = some (.completed .halted) →
        cycle (cycle s).2 = (some (.completed .halted), (cycle s).2)) ∧
      ∀ k, (cycle s).1 = some (.fault k) → cycle (cycle s).2 = (some (.fault k), s)

/-- R15, R17, R28, R36: no cycle writes memory, V or I, and one that completes leaves last_word
holding the word it fetched (R74, decision D12). -/
def Obligations.NoCycleWritesMemoryOrDataRegisters : Prop :=
  ∀ s t : State, step s = .next t →
    (∀ a, Memory.read t.mem a = Memory.read s.mem a) ∧ t.mem = s.mem ∧
      (∀ idx : Fin 16, readV t idx = readV s idx) ∧ readI t = readI s ∧ fetch s = .ok t.lastWord

/-- R21, R23, R40: every cycle keeps the invariant: canonical memory (the model's form, log entry 18), the
reserved region as constructed (decision D30), PC at most 0x1000 and every occupied slot at most 0xFFE.
(The bound on PC rests on RET's resume point, decision D5, log entry 2.) -/
def Obligations.StepKeepsInvariant : Prop :=
  ∀ s t : State, Inv s → step s = .next t → Inv t

/-- R45, R47, R48 (decision D16; log entry 16): a load that succeeds keeps the invariant. Canonical
memory is the model's form (log entry 18). -/
def Obligations.LoadKeepsInvariant : Prop :=
  ∀ (s t : State) (bytes : List Byte), Inv s → load bytes s = .ok t → Inv t

/-- R15, R17, R21, R48, R49: whatever the host does to an instance, any loads, cycles and read-outs in
any order, the invariant holds (canonical memory is the model's form, log entry 18; PC's bound rests on
decision D5, log entry 2), V and I keep their reset values (decision D10 for V, log entry 4), and the
font is still in place (decisions D7, D8, log entry 3). -/
def Obligations.EveryHostHistoryKeepsTheReservedRegionAndRegisters : Prop :=
  ∀ ops : List HostOp,
    Inv (performAll construct ops) ∧ DataRegistersAtReset (performAll construct ops) ∧
      ∀ (k : Nat) (hk : k < fontTable.length),
        Memory.read (performAll construct ops).mem k = fontTable[k]

/-- R15, R17, R27, R28, R76: what a cycle does depends on memory, PC, SP and the occupied slots alone.
Two states that agree on those fault alike, or complete with states that agree on them again, with the
same last_word and status, and send the same display requests. -/
def Obligations.CycleReadsOnlyMemoryPcAndOccupiedSlots : Prop :=
  ∀ s s' : State, s.mem = s'.mem → s.pc = s'.pc → s.sp = s'.sp →
    (∀ k : Fin 16, k.val < s.sp.val → s.stack[k.val] = s'.stack[k.val]) →
    (∀ k, step s = .fault k ↔ step s' = .fault k) ∧
      ∀ t, step s = .next t → ∃ t', step s' = .next t' ∧
        t.mem = t'.mem ∧ t.pc = t'.pc ∧ t.sp = t'.sp ∧
        (∀ k : Fin 16, k.val < t.sp.val → t.stack[k.val] = t'.stack[k.val]) ∧
        t.lastWord = t'.lastWord ∧ t.lastStatus = t'.lastStatus ∧
        ∃ d, t.display = s.display ++ d ∧ t'.display = s'.display ++ d

/-! ## The instructions -/

/-- R78 (decisions D1, D21; log entries 1, 7): CLS completes in every state, sends one clear request and
advances PC by 2. As a cycle on the word 0x00E0 it also commits the word (decision D12); at PC = 0xFFE
the next fetch faults. `exec` leaves the commit to `step` (log entry 17), and `lastStatus` is the
model's record of `Continue` (log entry 6). -/
def Obligations.ClsEmitsOneClearAndAdvances : Prop :=
  ∀ s : State,
    exec .cls s = .next { s with
      pc := s.pc + 2#16, display := s.display ++ [.clear], lastStatus := .continued } ∧
      (fetch s = .ok 0x00E0#16 → ∃ t, step s = .next t ∧
        t = { s with pc := t.pc, display := s.display ++ [.clear], lastWord := 0x00E0#16,
                     lastStatus := .continued } ∧
        t.pc.toNat = s.pc.toNat + 2 ∧
        (s.pc = 0xFFE#16 → t.pc = 0x1000#16 ∧ step t = .fault .memoryOutOfBounds))

/-- R95 (decision D21; log entry 7): the display trace grows by one request on the CLS word and by none
otherwise, and after a CLS every pixel of the surface is false, whatever the surface held before. -/
def Obligations.DisplayRequestsComeFromClsAlone : Prop :=
  ∀ s t : State, step s = .next t →
    (fetch s = .ok 0x00E0#16 → t.display = s.display ++ [.clear] ∧
        ∀ (px : Surface) (y : Fin 32) (x : Fin 64),
          ((surfaceAfter px t.display)[y.val]'y.isLt)[x.val]'x.isLt = false) ∧
      (fetch s ≠ .ok 0x00E0#16 → t.display = s.display)

/-- R79 (decisions D2, D5; log entries 1, 2): RET with SP > 0 pops and resumes two bytes after the popped
address, the slots unchanged; with SP = 0 it faults. As a cycle on the word 0x00EE it also commits the
word (decision D12); a popped 0xFFE gives PC = 0x1000, where the next fetch faults. `exec` leaves the
commit to `step` (log entry 17), and `lastStatus` is the model's record of `Continue` (log entry 6). -/
def Obligations.RetPopsAndResumesAfterTheCall : Prop :=
  ∀ s : State,
    (∀ top : Fin 16, top.val + 1 = s.sp.val → ∃ t, exec .ret s = .next t ∧
      t = { s with pc := s.stack[top.val] + 2#16, sp := t.sp, lastStatus := .continued } ∧
      t.sp.val = top.val ∧
      (fetch s = .ok 0x00EE#16 → step s = .next { t with lastWord := 0x00EE#16 } ∧
        (s.stack[top.val] = 0xFFE#16 →
          t.pc = 0x1000#16 ∧ step { t with lastWord := 0x00EE#16 } = .fault .memoryOutOfBounds))) ∧
      (s.sp.val = 0 → exec .ret s = .fault .stackUnderflow ∧
        (fetch s = .ok 0x00EE#16 → step s = .fault .stackUnderflow))

/-- R80: on every word 0x1nnn, JP completes with PC = nnn, last_word the word (R74, decision D12; log
entry 11), and nothing else of the spec's state changed. A jump to 0xFFF succeeds and the next fetch
faults (decision D15); a jump to itself never ends; the source's test is the last clause. Two points
are the model's own choice: `exec` leaves the commit of last_word to `step` (log entry 17), and
`lastStatus` records the `Continue` returned (log entry 6). -/
def Obligations.JumpSetsPcToItsAddressOperand : Prop :=
  (∀ (s : State) (addr : Addr12), ∃ t, exec (.jp addr) s = .next t ∧
      t = { s with pc := t.pc, lastStatus := .continued } ∧ t.pc.toNat = addr.toNat) ∧
    (∀ (s : State) (w : Word), fetch s = .ok w → w &&& 0xF000#16 = 0x1000#16 →
      ∃ t, step s = .next t ∧
        t = { s with pc := t.pc, lastWord := w, lastStatus := .continued } ∧
        t.pc.toNat = w.toNat % 4096 ∧
        (w = 0x1FFF#16 → step t = .fault .memoryOutOfBounds) ∧
        (s.pc.toNat = w.toNat % 4096 → ∀ n, 0 < n → hostLoop n s = .stopped t)) ∧
    ∃ s t, load [0x10#8, 0x00#8] construct = .ok s ∧ step s = .next t ∧ t.pc = 0x000#16 ∧
      (cycle s).1 = some (.completed .continued)

/-- R81: on every word 0x2nnn with SP below 16, CALL stores its own address at slot SP, increments SP
and sets PC = nnn, with last_word the word (R74, decision D12; log entry 11) and nothing else of the
spec's state changed; with SP = 16 it faults and the state stays (R73, decision D13; log entry 5). A
call to itself from an empty stack faults on its 17th execution; the source's test is the last clause.
Two points are the model's own choice: `exec` leaves the commit of last_word to `step` (log entry 17),
and `lastStatus` records the `Continue` returned (log entry 6). -/
def Obligations.CallPushesItsOwnAddressAndJumps : Prop :=
  (∀ (s : State) (addr : Addr12),
      (s.sp.val < 16 → ∃ t, exec (.call addr) s = .next t ∧
        t = { s with pc := t.pc, stack := t.stack, sp := t.sp, lastStatus := .continued } ∧
        t.pc.toNat = addr.toNat ∧ t.sp.val = s.sp.val + 1 ∧
        ∀ k : Fin 16, t.stack[k.val] = if k.val = s.sp.val then s.pc else s.stack[k.val]) ∧
      (s.sp.val = 16 → exec (.call addr) s = .fault .stackOverflow)) ∧
    (∀ (s : State) (w : Word), fetch s = .ok w → w &&& 0xF000#16 = 0x2000#16 →
      (s.sp.val < 16 → ∃ t, step s = .next t ∧
        t = { s with pc := t.pc, stack := t.stack, sp := t.sp, lastWord := w,
                     lastStatus := .continued } ∧
        t.pc.toNat = w.toNat % 4096 ∧ t.sp.val = s.sp.val + 1 ∧
        ∀ k : Fin 16, t.stack[k.val] = if k.val = s.sp.val then s.pc else s.stack[k.val]) ∧
      (s.sp.val = 16 → cycle s = (some (.fault .stackOverflow), s)) ∧
      (s.sp.val = 0 → s.pc.toNat = w.toNat % 4096 →
        ∃ u, hostLoop 16 s = .stopped u ∧ hostLoop 17 s = .faulted .stackOverflow u ∧
          u.sp.val = 16 ∧ u.pc = s.pc)) ∧
    ∃ s t, load [0x20#8, 0x05#8] construct = .ok s ∧ step s = .next t ∧ t.stack[0] = 0x200#16 ∧
      t.sp.val = 1 ∧ t.pc = 0x005#16 ∧ (cycle s).1 = some (.completed .continued)

/-- R79, R81, R82 (decision D5; log entry 2): a CALL followed at once by a RET comes back to the word
after the CALL with SP and every slot below it as before the CALL. -/
def Obligations.ReturnAfterCallResumesPastTheCall : Prop :=
  ∀ (s t : State) (w : Word), fetch s = .ok w → w.toNat / 4096 = 2 → step s = .next t →
    fetch t = .ok 0x00EE#16 →
    ∃ u, step t = .next u ∧ u.pc.toNat = s.pc.toNat + 2 ∧ u.sp = s.sp ∧
      ∀ k : Fin 16, k.val < s.sp.val → u.stack[k.val] = s.stack[k.val]

/-- R83 (decisions D3, D6; log entries 1, 10): HALT completes in every state with status `Halted` and
keeps PC; as a cycle on the word 0x00FD it writes last_word alone (decision D12; log entry 11) beside
the model's record of the status (log entry 6). `exec` leaves that write to `step` (log entry 17). -/
def Obligations.HaltReturnsHaltedAndKeepsPc : Prop :=
  ∀ s : State, exec .halt s = .next { s with lastStatus := .halted } ∧
    (fetch s = .ok 0x00FD#16 →
      cycle s = (some (.completed .halted),
        { s with lastWord := 0x00FD#16, lastStatus := .halted }))

/-- R84 (decision D4; log entry 9): an unknown word always ends in `Fault(UnimplementedOpcode)` with
that word, and a cycle on it leaves the state as it was (R73, decision D13; log entry 5). -/
def Obligations.UnknownWordFaultsWithTheWholeWord : Prop :=
  ∀ (s : State) (raw : Word), exec (.unknown raw) s = .fault (.unimplementedOpcode raw) ∧
    (fetch s = .ok raw → inUnknownSpace raw = true →
      cycle s = (some (.fault (.unimplementedOpcode raw)), s))

/-- The frame of `exec` for the instructions that do not touch the stack, CLS, JP and HALT (R78, R80,
R83): V, I, every slot, SP and every byte of memory keep; the display trace too but for CLS. PC, and
the model's `lastStatus`, may change; HALT keeps PC (decision D6; log entry 10). last_word keeps under
`exec` only by the model's split (log entry 17, DESIGN CHOICE): those rules have the cycle write it,
and `step` does. -/
def Obligations.NonStackInstructionsFrame : Prop :=
  ∀ (i : Instr) (s t : State), (i = .cls ∨ i = .halt ∨ ∃ addr, i = .jp addr) → exec i s = .next t →
    (∀ a, Memory.read t.mem a = Memory.read s.mem a) ∧
      (∀ idx : Fin 16, readV t idx = readV s idx) ∧ readI t = readI s ∧
      (∀ k : Fin 16, t.stack[k.val] = s.stack[k.val]) ∧ t.sp = s.sp ∧ t.lastWord = s.lastWord ∧
      (i ≠ .cls → t.display = s.display) ∧ (i = .halt → t.pc = s.pc)

/-- The frame of `exec` for the instructions on the stack, CALL and RET (R79, R81): V, I, the display trace
and every byte of memory keep; SP moves by one; every slot keeps but the one CALL pushes to. last_word
keeps under `exec` only by the model's split (log entry 17, DESIGN CHOICE): those rules have the cycle
write it, and `step` does. -/
def Obligations.StackInstructionsFrame : Prop :=
  ∀ (i : Instr) (s t : State), (i = .ret ∨ ∃ addr, i = .call addr) → exec i s = .next t →
    (∀ a, Memory.read t.mem a = Memory.read s.mem a) ∧
      (∀ idx : Fin 16, readV t idx = readV s idx) ∧ readI t = readI s ∧
      t.lastWord = s.lastWord ∧ t.display = s.display ∧
      (i = .ret → t.sp.val + 1 = s.sp.val ∧ ∀ k : Fin 16, t.stack[k.val] = s.stack[k.val]) ∧
      (i ≠ .ret → t.sp.val = s.sp.val + 1 ∧
        ∀ k : Fin 16, k.val ≠ s.sp.val → t.stack[k.val] = s.stack[k.val])

/-! ## Codes, boot and the host's loop -/

/-- R85 (decision D18) and decision D19: the numeric codes of the faults and of the statuses (log
entry 15). -/
def Obligations.FaultAndStatusCodesAreAsListed : Prop :=
  Fault.code .memoryOutOfBounds = 1 ∧ Fault.code .stackOverflow = 2 ∧
    Fault.code .stackUnderflow = 3 ∧ (∀ raw, Fault.code (.unimplementedOpcode raw) = 4) ∧
    Fault.code .programTooLarge = 5 ∧ Status.code (.completed .continued) = 0 ∧
    Status.code (.completed .halted) = 1 ∧ ∀ k, Status.code (.fault k) = 2

/-- R103 (decisions D4, D9; log entries 4, 9): a cycle with no program loaded fetches zeros at 0x200 and
faults, and the state stays (R73, decision D13; log entry 5). -/
def Obligations.CycleWithNoProgramFaultsOnZeroWord : Prop :=
  cycle construct = (some (.fault (.unimplementedOpcode 0x0000#16)), construct)

/-- The model's placement of a table word (log entry 8): it keeps memory canonical (log entry 18), changes
memory and at most PC, and the very next fetch reads the word. -/
def Obligations.PlacedTableWordIsFetchedNext : Prop :=
  ∀ (s : State) (w : Nat), Memory.wf s.mem = true → w < 65536 →
    fetch (s.withFetchWord 16 w) = .ok (BitVec.ofNat 16 w) ∧
      Memory.wf (s.withFetchWord 16 w).mem = true ∧
      s.withFetchWord 16 w =
        { s with mem := (s.withFetchWord 16 w).mem, pc := (s.withFetchWord 16 w).pc } ∧
      (s.pc.toNat + 1 ≤ 0xFFF → (s.withFetchWord 16 w).pc = s.pc)

/-- R108, R109: the host's loop ends at the first terminal status. A run that has halted or faulted
within n cycles ends the same way when more are allowed; a faulted run ends in the pre-fault state
(decision D13; log entry 5); no run is refused. A halted run's final state has the HALT word (decision
D3; log entry 1) at PC, because HALT keeps PC (R71, R83, decision D6; log entry 10). -/
def Obligations.HostLoopEndsAtTheFirstTerminalStatus : Prop :=
  ∀ (n : Nat) (s : State),
    (∀ t, hostLoop n s = .halted t →
        (∀ m, hostLoop (n + m) s = .halted t) ∧ t.lastStatus = .halted ∧ fetch t = .ok 0x00FD#16) ∧
      (∀ k t, hostLoop n s = .faulted k t →
        (∀ m, hostLoop (n + m) s = .faulted k t) ∧ step t = .fault k) ∧
      ∀ r t, hostLoop n s ≠ .refused r t

/-- R110: the read-out reports all 4096 bytes, sixteen registers and sixteen slots as the state holds
them, and changes nothing. -/
def Obligations.ReadOutReportsTheWholeStateUnchanged : Prop :=
  ∀ s : State,
    HostOp.readOut.perform s = (.values (readOut s), s) ∧
      (readOut s).mem.length = 4096 ∧
      (∀ a, a < 4096 → (readOut s).mem[a]? = some (Memory.read s.mem a)) ∧
      (readOut s).v.length = 16 ∧
      (∀ idx : Fin 16, (readOut s).v[idx.val]? = some (readV s idx)) ∧
      (readOut s).stack.length = 16 ∧
      (∀ k : Fin 16, (readOut s).stack[k.val]? = some s.stack[k.val]) ∧
      (readOut s).i = s.i ∧ (readOut s).pc = s.pc ∧ (readOut s).sp = s.sp.val ∧
      (readOut s).lastWord = s.lastWord
end

