-- ==== Sys2Proof/Laws/Decode.lean ====
section
/-! SUPPORT. Small facts about words, bytes and the two field views the decoder uses, as arithmetic on
the word's value, for proofs about decoding (spec/30_encoding.md). -/

namespace Sys2Proof

theorem idField_toNat (w : Word) : (idField w).toNat = w.toNat / 4096 := by
  have := w.isLt
  simp only [idField, BitVec.extractLsb'_toNat, Nat.shiftRight_eq_div_pow]
  omega

theorem nnnField_toNat (w : Word) : (nnnField w).toNat = w.toNat % 4096 := by
  simp [nnnField]

theorem wordOfBytes_toNat (hi lo : Byte) :
    (wordOfBytes hi lo).toNat = hi.toNat * 256 + lo.toNat := by
  have := lo.isLt
  rw [wordOfBytes, BitVec.toNat_append, Nat.shiftLeft_eq, Nat.mul_comm, ← Nat.two_pow_add_eq_or_of_lt this]

theorem hiByte_toNat (w : Word) : (hiByte w).toNat = w.toNat / 256 := by
  have := w.isLt
  simp only [hiByte, BitVec.extractLsb'_toNat, Nat.shiftRight_eq_div_pow]
  omega

theorem loByte_toNat (w : Word) : (loByte w).toNat = w.toNat % 256 := by
  simp [loByte]

/-- A word is its two bytes, the first one high (R55). -/
@[simp] theorem wordOfBytes_bytes (w : Word) : wordOfBytes (hiByte w) (loByte w) = w := by
  apply BitVec.eq_of_toNat_eq
  rw [wordOfBytes_toNat, hiByte_toNat, loByte_toNat]
  omega

@[simp] theorem hiByte_wordOfBytes (hi lo : Byte) : hiByte (wordOfBytes hi lo) = hi := by
  apply BitVec.eq_of_toNat_eq
  have := lo.isLt
  rw [hiByte_toNat, wordOfBytes_toNat]
  omega

@[simp] theorem loByte_wordOfBytes (hi lo : Byte) : loByte (wordOfBytes hi lo) = lo := by
  apply BitVec.eq_of_toNat_eq
  have := lo.isLt
  rw [loByte_toNat, wordOfBytes_toNat]
  omega

/-- A word with an address operand, as arithmetic: the identifier nibble above twelve bits. -/
theorem nibble_append_toNat (k : BitVec 4) (addr : Addr12) :
    (k ++ addr : BitVec (4 + 12)).toNat = k.toNat * 4096 + addr.toNat := by
  have := addr.isLt
  rw [BitVec.toNat_append, Nat.shiftLeft_eq, Nat.mul_comm, ← Nat.two_pow_add_eq_or_of_lt this]

/-- An address operand or-ed below an identifier nibble, as arithmetic (R64). -/
theorem or_operand_toNat {k n : Nat} (hk : k < 16) (hn : n ≤ 0xFFF) :
    (BitVec.ofNat 16 (k * 4096) ||| BitVec.ofNat 16 n).toNat = k * 4096 + n := by
  have h := Nat.two_pow_add_eq_or_of_lt (i := 12) (b := n) (by omega) k
  rw [BitVec.toNat_or, BitVec.toNat_ofNat, BitVec.toNat_ofNat, Nat.mod_eq_of_lt (by omega),
    Nat.mod_eq_of_lt (by omega)]
  rw [show k * 4096 = 2 ^ 12 * k by omega, ← h]

/-- What the decoder gives, said once: the variant and where the word lies (R59, R61). -/
theorem decodeWord_cases (w : Word) :
    (w = 0x00E0#16 ∧ decodeWord w = .cls) ∨ (w = 0x00EE#16 ∧ decodeWord w = .ret) ∨
      (w = 0x00FD#16 ∧ decodeWord w = .halt) ∨
      (w.toNat / 4096 = 1 ∧ decodeWord w = .jp (nnnField w)) ∨
      (w.toNat / 4096 = 2 ∧ decodeWord w = .call (nnnField w)) ∨
      (inUnknownSpace w = true ∧ decodeWord w = .unknown w) := by
  have hid := idField_toNat w
  unfold decodeWord
  split
  · simp_all
  split
  · simp_all
  split
  · simp_all
  split
  · next h =>
    rw [h] at hid
    simp at hid
    simp [← hid]
  split
  · next h =>
    rw [h] at hid
    simp at hid
    simp [← hid]
  next h1 h2 h3 h4 h5 =>
  refine .inr (.inr (.inr (.inr (.inr ⟨?_, rfl⟩))))
  simp only [← BitVec.toNat_inj, BitVec.toNat_ofNat] at h1 h2 h3 h4 h5
  simp only [inUnknownSpace, Bool.or_eq_true, Bool.and_eq_true, decide_eq_true_eq, bne_iff_ne]
  have := w.isLt
  omega

/-- The unknown space as arithmetic on the word's value (R61). -/
theorem inUnknownSpace_iff (w : Word) :
    inUnknownSpace w = true ↔
      (w.toNat ≤ 0x0FFF ∧ w.toNat ≠ 0x00E0 ∧ w.toNat ≠ 0x00EE ∧ w.toNat ≠ 0x00FD) ∨
        0x3000 ≤ w.toNat := by
  simp only [inUnknownSpace, Bool.or_eq_true, Bool.and_eq_true, decide_eq_true_eq, bne_iff_ne, ne_eq,
    and_assoc]

end Sys2Proof
end

