-- ==== Sys2Proof/Laws/Memory.lean ====
section
/-! SUPPORT. The laws of the byte array (spec/20_memory.md R33 to R35, R41): a read after a write, the
canonical form is kept, and canonical memories that read alike are equal. -/

namespace Sys2Proof.Machine

@[simp] theorem Memory.read_nil (addr : Nat) : Memory.read [] addr = unlistedByte addr := rfl

theorem Memory.read_cons (a : Nat) (b : Byte) (rest : Memory) (addr : Nat) :
    Memory.read ((a, b) :: rest) addr = if a = addr then b else Memory.read rest addr := rfl

/-- The cells of a canonical memory, taken apart once. -/
theorem Memory.wfFrom_cons {lo a : Nat} {b : Byte} {rest : Memory} :
    Memory.wfFrom lo ((a, b) :: rest) = true ↔
      lo ≤ a ∧ a ≤ Config.addrMax ∧ b ≠ unlistedByte a ∧ Memory.wfFrom (a + 1) rest = true := by
  simp [Memory.wfFrom, and_assoc]

@[simp] theorem Memory.wfFrom_nil (lo : Nat) : Memory.wfFrom lo [] = true := rfl

theorem Memory.wf_nil : Memory.wf [] = true := rfl

theorem Memory.wfFrom_mono {lo lo' : Nat} (h : lo' ≤ lo) :
    ∀ {m : Memory}, Memory.wfFrom lo m = true → Memory.wfFrom lo' m = true
  | [], _ => rfl
  | (_, _) :: _, hm => by
    rw [Memory.wfFrom_cons] at hm ⊢
    exact ⟨h.trans hm.1, hm.2⟩

/-- An address below every listed one reads as unlisted. -/
theorem Memory.read_below {lo addr : Nat} (h : addr < lo) :
    ∀ {m : Memory}, Memory.wfFrom lo m = true → Memory.read m addr = unlistedByte addr
  | [], _ => rfl
  | (a, b) :: rest, hm => by
    rw [Memory.wfFrom_cons] at hm
    rw [Memory.read_cons, if_neg (by omega)]
    exact Memory.read_below (by omega) hm.2.2.2

/-- A read of a canonical memory after a write, at any address. -/
theorem Memory.read_write {addr addr' : Nat} {v : Byte} :
    ∀ {lo : Nat} {m : Memory}, Memory.wfFrom lo m = true →
      Memory.read (Memory.write m addr v) addr' = if addr = addr' then v else Memory.read m addr'
  | _, [], _ => by
    unfold Memory.write
    split
    · next hv => split <;> simp_all
    · simp [Memory.read_cons]
  | _, (a, b) :: rest, hm => by
    have hm' := Memory.wfFrom_cons.mp hm
    have ih := Memory.read_write (addr := addr) (addr' := addr') (v := v) hm'.2.2.2
    have below := fun (h : addr' < a + 1) => Memory.read_below h hm'.2.2.2
    unfold Memory.write
    split
    · next hlt =>
      split
      · next hv =>
        split
        · next he => rw [Memory.read_cons, if_neg (by omega), below (by omega), hv, he]
        · rfl
      · rw [Memory.read_cons]
    · split
      · next he =>
        subst he
        split
        · next hv =>
          split
          · next he' => rw [below (by omega), hv, he']
          · next hn => rw [Memory.read_cons, if_neg hn]
        · rw [Memory.read_cons, Memory.read_cons]
          split <;> rfl
      · rw [Memory.read_cons, ih, Memory.read_cons]
        split
        · rw [if_neg (by omega)]
        · rfl

/-- A write inside the address space keeps the canonical form. -/
theorem Memory.wfFrom_write {addr : Nat} {v : Byte} (ha : addr ≤ Config.addrMax) :
    ∀ {lo : Nat} {m : Memory}, lo ≤ addr → Memory.wfFrom lo m = true →
      Memory.wfFrom lo (Memory.write m addr v) = true
  | lo, [], hlo, _ => by
    unfold Memory.write
    split
    · rfl
    · next hv => exact Memory.wfFrom_cons.mpr ⟨hlo, ha, hv, rfl⟩
  | lo, (a, b) :: rest, hlo, hm => by
    obtain ⟨h1, h2, h3, h4⟩ := Memory.wfFrom_cons.mp hm
    unfold Memory.write
    split
    · split
      · exact hm
      · next hv =>
        exact Memory.wfFrom_cons.mpr ⟨hlo, ha, hv, Memory.wfFrom_cons.mpr ⟨by omega, h2, h3, h4⟩⟩
    · split
      · next he =>
        subst he
        split
        · exact Memory.wfFrom_mono (by omega) h4
        · next hv => exact Memory.wfFrom_cons.mpr ⟨hlo, ha, hv, h4⟩
      · exact Memory.wfFrom_cons.mpr ⟨h1, h2, h3, Memory.wfFrom_write ha (by omega) h4⟩

theorem Memory.wf_write {m : Memory} {addr : Nat} {v : Byte} (ha : addr ≤ Config.addrMax)
    (hm : Memory.wf m = true) : Memory.wf (Memory.write m addr v) = true :=
  Memory.wfFrom_write ha (Nat.zero_le _) hm

/-- `MemRead` inside the address space (R34). -/
theorem memRead_of_le {m : Memory} {addr : Nat} (h : addr ≤ Config.addrMax) :
    memRead m addr = .ok (Memory.read m addr) := by
  simp [memRead, h]

/-- `MemRead` above the address space (R34). -/
theorem memRead_of_gt {m : Memory} {addr : Nat} (h : Config.addrMax < addr) :
    memRead m addr = .error .memoryOutOfBounds := by
  simp [memRead, h]

/-- All a `MemWrite` that succeeds can do (R35). -/
theorem memWrite_ok {m m' : Memory} {addr : Nat} {v : Byte} (h : memWrite m addr v = .ok m')
    (hm : Memory.wf m = true) :
    addr ≤ Config.addrMax ∧ Memory.wf m' = true ∧
      ∀ a, Memory.read m' a = if addr = a then v else Memory.read m a := by
  unfold memWrite at h
  split at h
  · cases h
  · next hle =>
    cases h
    exact ⟨by omega, Memory.wf_write (by omega) hm, fun a => Memory.read_write hm⟩

/-- `MemWrite` inside the address space succeeds (R35). -/
theorem memWrite_of_le {m : Memory} {addr : Nat} {v : Byte} (h : addr ≤ Config.addrMax) :
    memWrite m addr v = .ok (Memory.write m addr v) := by
  simp [memWrite, h]

/-- `MemWrite` above the address space (R35). -/
theorem memWrite_of_gt {m : Memory} {addr : Nat} {v : Byte} (h : Config.addrMax < addr) :
    memWrite m addr v = .error .memoryOutOfBounds := by
  simp [memWrite, h]

/-- A run of writes that ends inside the address space succeeds; it keeps the canonical form, stores
each byte at its address and leaves every other address alone (R35, R45). -/
theorem memWriteBytes_ok {bytes : List Byte} :
    ∀ {m : Memory} {addr : Nat}, Memory.wf m = true → addr + bytes.length ≤ Config.addrMax + 1 →
      ∃ m', memWriteBytes m addr bytes = .ok m' ∧ Memory.wf m' = true ∧
        ∀ a, Memory.read m' a =
          if h : addr ≤ a ∧ a - addr < bytes.length then bytes[a - addr]'h.2 else Memory.read m a := by
  induction bytes with
  | nil => intro m addr hm _; exact ⟨m, rfl, hm, fun a => by simp⟩
  | cons b rest ih =>
    intro m addr hm hlen
    simp only [List.length_cons] at hlen
    have ha : addr ≤ Config.addrMax := by omega
    obtain ⟨m', h1, h2, h3⟩ :=
      ih (m := Memory.write m addr b) (addr := addr + 1) (Memory.wf_write ha hm) (by omega)
    refine ⟨m', by simp [memWriteBytes, memWrite_of_le ha, h1], h2, fun a => ?_⟩
    rw [h3 a]
    by_cases hlt : a < addr
    · rw [dif_neg (by omega), dif_neg (by omega), Memory.read_write hm, if_neg (by omega)]
    · by_cases heq : addr = a
      · subst heq
        rw [dif_neg (by omega), dif_pos (by simp), Memory.read_write hm, if_pos rfl]
        simp
      · by_cases hin : a - (addr + 1) < rest.length
        · rw [dif_pos (by omega), dif_pos (by simp only [List.length_cons]; omega)]
          have : a - addr = (a - (addr + 1)) + 1 := by omega
          simp [this]
        · rw [dif_neg (by omega), dif_neg (by simp only [List.length_cons]; omega),
            Memory.read_write hm, if_neg heq]

end Sys2Proof.Machine
end

