-- ==== Sys2Proof/Laws/State.lean ====
section
/-! SUPPORT. One lemma per field per named update of the state, true by rfl, so that no later proof
unfolds a record update; and the fields of the state after construction. -/

namespace Sys2Proof.Machine

@[simp] theorem writePc_mem (s : State) (x : Word) : (writePc s x).mem = s.mem := rfl
@[simp] theorem writePc_v (s : State) (x : Word) : (writePc s x).v = s.v := rfl
@[simp] theorem writePc_i (s : State) (x : Word) : (writePc s x).i = s.i := rfl
@[simp] theorem writePc_pc (s : State) (x : Word) : (writePc s x).pc = x := rfl
@[simp] theorem writePc_stack (s : State) (x : Word) : (writePc s x).stack = s.stack := rfl
@[simp] theorem writePc_sp (s : State) (x : Word) : (writePc s x).sp = s.sp := rfl
@[simp] theorem writePc_lastWord (s : State) (x : Word) : (writePc s x).lastWord = s.lastWord := rfl
@[simp] theorem writePc_display (s : State) (x : Word) : (writePc s x).display = s.display := rfl
@[simp] theorem writePc_lastStatus (s : State) (x : Word) : (writePc s x).lastStatus = s.lastStatus := rfl

@[simp] theorem writeI_mem (s : State) (x : Word) : (writeI s x).mem = s.mem := rfl
@[simp] theorem writeI_v (s : State) (x : Word) : (writeI s x).v = s.v := rfl
@[simp] theorem writeI_i (s : State) (x : Word) : (writeI s x).i = x := rfl
@[simp] theorem writeI_pc (s : State) (x : Word) : (writeI s x).pc = s.pc := rfl
@[simp] theorem writeI_stack (s : State) (x : Word) : (writeI s x).stack = s.stack := rfl
@[simp] theorem writeI_sp (s : State) (x : Word) : (writeI s x).sp = s.sp := rfl
@[simp] theorem writeI_lastWord (s : State) (x : Word) : (writeI s x).lastWord = s.lastWord := rfl
@[simp] theorem writeI_display (s : State) (x : Word) : (writeI s x).display = s.display := rfl
@[simp] theorem writeI_lastStatus (s : State) (x : Word) : (writeI s x).lastStatus = s.lastStatus := rfl

@[simp] theorem writeV_mem (s : State) (idx : Fin 16) (b : Byte) : (writeV s idx b).mem = s.mem := rfl
@[simp] theorem writeV_v (s : State) (idx : Fin 16) (b : Byte) : (writeV s idx b).v = s.v.set idx.val b := rfl
@[simp] theorem writeV_i (s : State) (idx : Fin 16) (b : Byte) : (writeV s idx b).i = s.i := rfl
@[simp] theorem writeV_pc (s : State) (idx : Fin 16) (b : Byte) : (writeV s idx b).pc = s.pc := rfl
@[simp] theorem writeV_stack (s : State) (idx : Fin 16) (b : Byte) : (writeV s idx b).stack = s.stack := rfl
@[simp] theorem writeV_sp (s : State) (idx : Fin 16) (b : Byte) : (writeV s idx b).sp = s.sp := rfl
@[simp] theorem writeV_lastWord (s : State) (idx : Fin 16) (b : Byte) : (writeV s idx b).lastWord = s.lastWord := rfl
@[simp] theorem writeV_display (s : State) (idx : Fin 16) (b : Byte) : (writeV s idx b).display = s.display := rfl
@[simp] theorem writeV_lastStatus (s : State) (idx : Fin 16) (b : Byte) : (writeV s idx b).lastStatus = s.lastStatus := rfl

@[simp] theorem emitDisplayClear_mem (s : State) : (emitDisplayClear s).mem = s.mem := rfl
@[simp] theorem emitDisplayClear_v (s : State) : (emitDisplayClear s).v = s.v := rfl
@[simp] theorem emitDisplayClear_i (s : State) : (emitDisplayClear s).i = s.i := rfl
@[simp] theorem emitDisplayClear_pc (s : State) : (emitDisplayClear s).pc = s.pc := rfl
@[simp] theorem emitDisplayClear_stack (s : State) : (emitDisplayClear s).stack = s.stack := rfl
@[simp] theorem emitDisplayClear_sp (s : State) : (emitDisplayClear s).sp = s.sp := rfl
@[simp] theorem emitDisplayClear_lastWord (s : State) : (emitDisplayClear s).lastWord = s.lastWord := rfl
@[simp] theorem emitDisplayClear_display (s : State) : (emitDisplayClear s).display = s.display ++ [.clear] := rfl
@[simp] theorem emitDisplayClear_lastStatus (s : State) : (emitDisplayClear s).lastStatus = s.lastStatus := rfl

@[simp] theorem advance_mem (s : State) : (advance s).mem = s.mem := rfl
@[simp] theorem advance_v (s : State) : (advance s).v = s.v := rfl
@[simp] theorem advance_i (s : State) : (advance s).i = s.i := rfl
@[simp] theorem advance_pc (s : State) : (advance s).pc = s.pc + 2#16 := rfl
@[simp] theorem advance_stack (s : State) : (advance s).stack = s.stack := rfl
@[simp] theorem advance_sp (s : State) : (advance s).sp = s.sp := rfl
@[simp] theorem advance_lastWord (s : State) : (advance s).lastWord = s.lastWord := rfl
@[simp] theorem advance_display (s : State) : (advance s).display = s.display := rfl
@[simp] theorem advance_lastStatus (s : State) : (advance s).lastStatus = s.lastStatus := rfl

@[simp] theorem reset_mem : State.reset.mem = [] := rfl
@[simp] theorem reset_v : State.reset.v = Vector.replicate 16 0x00#8 := rfl
@[simp] theorem reset_i : State.reset.i = 0x0000#16 := rfl
@[simp] theorem reset_pc : State.reset.pc = 0x200#16 := rfl
@[simp] theorem reset_stack : State.reset.stack = Vector.replicate 16 0x0000#16 := rfl
@[simp] theorem reset_sp : State.reset.sp = 0 := rfl
@[simp] theorem reset_lastWord : State.reset.lastWord = 0x0000#16 := rfl
@[simp] theorem reset_display : State.reset.display = [] := rfl
@[simp] theorem reset_lastStatus : State.reset.lastStatus = .continued := rfl

@[simp] theorem readV_eq (s : State) (idx : Fin 16) : readV s idx = s.v[idx.val] := rfl
@[simp] theorem readI_eq (s : State) : readI s = s.i := rfl
@[simp] theorem readPc_eq (s : State) : readPc s = s.pc := rfl

end Sys2Proof.Machine
end

