-- ==== Sys2Proof/Laws/Ops.lean ====
section
/-! SUPPORT. One lemma per shared operation: everything the call stack, the fetch, the end of a
handler and the commit can do. -/

namespace Sys2Proof.Machine

/-! ## The call stack -/

/-- `Push` on a full stack (R24). -/
theorem push_full {a : Word} {s : State} (h : s.sp.val = 16) : push a s = .error .stackOverflow := by
  simp [push, h]

/-- Everything a `Push` that succeeds can do (R24). -/
theorem push_ok {a : Word} {s t : State} (h : push a s = .ok t) :
    s.sp.val < 16 ∧ t.sp.val = s.sp.val + 1 ∧
      (∀ k : Fin 16, t.stack[k.val] = if k.val = s.sp.val then a else s.stack[k.val]) ∧
      t = { s with stack := t.stack, sp := t.sp } := by
  unfold push at h
  split at h
  · cases h
  · cases h
    have := s.sp.isLt
    exact ⟨by omega, rfl, fun k => by simp [Vector.getElem_set, eq_comm], rfl⟩

/-- `Push` succeeds below the capacity (R24). -/
theorem push_room {a : Word} {s : State} (h : s.sp.val < 16) : ∃ t, push a s = .ok t := by
  unfold push
  rw [dif_neg (by omega)]
  exact ⟨_, rfl⟩

/-- `Pop` on an empty stack (R25). -/
theorem pop_empty {s : State} (h : s.sp.val = 0) : pop s = .error .stackUnderflow := by
  simp [pop, h]

/-- Everything a `Pop` that succeeds can do: the top slot is returned, and every slot keeps its
value (R25). -/
theorem pop_ok {s t : State} {a : Word} (h : pop s = .ok (a, t)) :
    0 < s.sp.val ∧ t.sp.val + 1 = s.sp.val ∧
      (∀ k : Fin 16, k.val + 1 = s.sp.val → a = s.stack[k.val]) ∧ t = { s with sp := t.sp } := by
  unfold pop at h
  split at h
  · cases h
  · cases h
    refine ⟨by omega, ?_, ?_, rfl⟩
    · show s.sp.val - 1 + 1 = s.sp.val
      omega
    · intro k hk
      have : s.sp.val - 1 = k.val := by omega
      simp [this]

/-- `Pop` succeeds on a stack that is not empty (R25). -/
theorem pop_room {s : State} (h : 0 < s.sp.val) : ∃ a t, pop s = .ok (a, t) := by
  unfold pop
  rw [dif_neg (by omega)]
  exact ⟨_, _, rfl⟩

/-! ## Fetch -/

/-- A fetch above 0xFFE faults before a byte is read (R67). -/
theorem fetch_out {s : State} (h : 0xFFF ≤ s.pc.toNat) : fetch s = .error .memoryOutOfBounds := by
  unfold fetch
  rw [if_pos (by simp only [readPc_eq, Config.addrMax]; omega)]

/-- A fetch up to 0xFFE reads the two bytes at PC, high byte first (R55, R67). -/
theorem fetch_in {s : State} (h : s.pc.toNat + 1 ≤ 0xFFF) :
    fetch s = .ok (wordOfBytes (Memory.read s.mem s.pc.toNat) (Memory.read s.mem (s.pc.toNat + 1))) := by
  unfold fetch
  rw [if_neg (by simp only [readPc_eq, Config.addrMax]; omega)]
  rw [memRead_of_le (by simp only [readPc_eq, Config.addrMax]; omega),
    memRead_of_le (by simp only [readPc_eq, Config.addrMax]; omega)]
  rfl

/-- Everything a fetch that succeeds can do (R55, R67). -/
theorem fetch_ok {s : State} {w : Word} (h : fetch s = .ok w) :
    s.pc.toNat ≤ 0xFFE ∧
      w = wordOfBytes (Memory.read s.mem s.pc.toNat) (Memory.read s.mem (s.pc.toNat + 1)) := by
  by_cases hp : 0xFFF ≤ s.pc.toNat
  · rw [fetch_out hp] at h
    cases h
  · rw [fetch_in (by omega)] at h
    cases h
    exact ⟨by omega, rfl⟩

/-- The fetch reads memory and PC, nothing else (R67). -/
theorem fetch_congr {s t : State} (hm : s.mem = t.mem) (hp : s.pc = t.pc) : fetch s = fetch t := by
  simp [fetch, hm, hp]

/-! ## The end of a handler, and the commit -/

@[simp] theorem finish_error (k : Fault) : finish (.error k) = .fault k := rfl

/-- A handler that returned `Continue` with PC not set: the generic advance (R71). -/
@[simp] theorem finish_advance (s : State) :
    finish (.ok ⟨s, .continued, false⟩) = .next { advance s with lastStatus := .continued } := rfl

/-- A handler that returned `Continue` and set PC: no advance (R70, R71). -/
@[simp] theorem finish_explicit (s : State) :
    finish (.ok ⟨s, .continued, true⟩) = .next { s with lastStatus := .continued } := rfl

/-- A handler that returned `Halted`: no advance (R71, R83). -/
@[simp] theorem finish_halted (s : State) (b : Bool) :
    finish (.ok ⟨s, .halted, b⟩) = .next { s with lastStatus := .halted } := rfl

@[simp] theorem commit_next (w : Word) (s : State) :
    commit w (.next s) = .next { s with lastWord := w } := rfl
@[simp] theorem commit_fault (w : Word) (k : Fault) : commit w (.fault k) = .fault k := rfl
@[simp] theorem commit_refused (w : Word) (r : Refusal) : commit w (.refused r) = .refused r := rfl

/-- The address operand is the twelve bits of the word, zero-extended (R57). -/
theorem addressOperand_toNat (addr : Addr12) : (addressOperand addr).toNat = addr.toNat := by
  have := addr.isLt
  simp only [addressOperand, BitVec.zeroExtend, BitVec.toNat_setWidth]
  omega

end Sys2Proof.Machine
end

