-- ==== Sys2Proof/Laws/Step.lean ====
section
/-! SUPPORT. What one cycle can do, said once (spec/40_cycle_driver.md R66 to R74): the inversion lemma
of `step`, and what keeps every cycle from refusing. -/

namespace Sys2Proof.Machine

/-- Everything a cycle that completes can do: the word it fetched, the variant it decoded to, and the
state the variant leaves, one case per variant that can succeed (R66, R69). -/
theorem step_next {s t : State} (h : step s = .next t) :
    ∃ w, fetch s = .ok w ∧
      ((decodeWord w = .cls ∧
          t = { advance (emitDisplayClear s) with lastStatus := .continued, lastWord := w }) ∨
        (∃ a u, decodeWord w = .ret ∧ pop s = .ok (a, u) ∧
          t = { writePc u (a + 2#16) with lastStatus := .continued, lastWord := w }) ∨
        (decodeWord w = .halt ∧ t = { s with lastStatus := .halted, lastWord := w }) ∨
        (∃ addr, decodeWord w = .jp addr ∧
          t = { writePc s (addressOperand addr) with lastStatus := .continued, lastWord := w }) ∨
        (∃ addr u, decodeWord w = .call addr ∧ push s.pc s = .ok u ∧
          t = { writePc u (addressOperand addr) with lastStatus := .continued, lastWord := w })) := by
  unfold step at h
  split at h
  · cases h
  · next w hf =>
    refine ⟨w, hf, ?_⟩
    cases hd : decodeWord w with
    | cls =>
      rw [hd] at h
      simp only [exec, execCls, handleCls, finish_advance, commit_next, Host.Outcome.next.injEq] at h
      exact .inl ⟨rfl, h.symm⟩
    | ret =>
      rw [hd] at h
      simp only [exec, execRet, handleRet] at h
      cases hp : pop s with
      | error k => rw [hp] at h; cases h
      | ok r =>
        obtain ⟨a, u⟩ := r
        rw [hp] at h
        simp only [returnTarget, Config.retSkipsCall, if_true, finish_explicit, commit_next,
          Host.Outcome.next.injEq] at h
        exact .inr (.inl ⟨a, u, rfl, rfl, h.symm⟩)
    | halt =>
      rw [hd] at h
      simp only [exec, execHalt, handleHalt, finish_halted, commit_next, Host.Outcome.next.injEq] at h
      exact .inr (.inr (.inl ⟨rfl, h.symm⟩))
    | jp addr =>
      rw [hd] at h
      simp only [exec, execJp, handleJp, finish_explicit, commit_next, Host.Outcome.next.injEq] at h
      exact .inr (.inr (.inr (.inl ⟨addr, rfl, h.symm⟩)))
    | call addr =>
      rw [hd] at h
      simp only [exec, execCall, handleCall, readPc_eq] at h
      cases hp : push s.pc s with
      | error k => rw [hp] at h; cases h
      | ok u =>
        rw [hp] at h
        simp only [finish_explicit, commit_next, Host.Outcome.next.injEq] at h
        exact .inr (.inr (.inr (.inr ⟨addr, u, rfl, rfl, h.symm⟩)))
    | unknown raw =>
      rw [hd] at h
      cases h

/-- A cycle whose fetch succeeds is the decoded instruction and the commit of its word (R66). -/
theorem step_of_fetch {s : State} {w : Word} (h : fetch s = .ok w) :
    step s = commit w (exec (decodeWord w) s) := by
  simp [step, h]

/-- A cycle whose fetch fails faults (R66, R67). -/
theorem step_of_fetch_error {s : State} {k : Fault} (h : fetch s = .error k) : step s = .fault k := by
  simp [step, h]

/-- An instruction is a finished handler, so it never refuses. -/
theorem finish_ne_refused (r : Except Fault Handled) (x : Refusal) : finish r ≠ .refused x := by
  cases r <;> simp [finish]

end Sys2Proof.Machine
end

