-- ==== Sys2Proof/Laws/HostOps.lean ====
section
/-! SUPPORT. What a `load` and one turn of the host's loop can do (spec/20_memory.md R45 to R47,
spec/70_reset_and_hazards.md R108). -/

namespace Sys2Proof.Machine

/-- `load` of too large a program (R46). -/
theorem load_too_large {bytes : List Byte} {s : State} (h : 3584 < bytes.length) :
    load bytes s = .error .programTooLarge := by
  have hc : Config.progCapacity = 3584 := rfl
  simp [load, hc, h]

/-- Everything a `load` that succeeds can do, on canonical memory (R45, R47). -/
theorem load_ok {bytes : List Byte} {s t : State} (h : load bytes s = .ok t)
    (hm : Memory.wf s.mem = true) :
    bytes.length ≤ 3584 ∧ t = { s with mem := t.mem, pc := 0x200#16 } ∧ Memory.wf t.mem = true ∧
      (∀ (k : Nat) (hk : k < bytes.length), Memory.read t.mem (0x200 + k) = bytes[k]) ∧
      ∀ a, (a < 0x200 ∨ 0x200 + bytes.length ≤ a) → Memory.read t.mem a = Memory.read s.mem a := by
  unfold load at h
  split at h
  · cases h
  · next hlen =>
    simp only [Config.progCapacity, Config.addrMax, Config.progBase] at hlen
    obtain ⟨m', h1, h2, h3⟩ := memWriteBytes_ok (bytes := bytes) (addr := 0x200) hm
      (by simp only [Config.addrMax]; omega)
    rw [show Config.progBase = 0x200 from rfl, h1] at h
    cases h
    refine ⟨by omega, rfl, h2, fun k hk => ?_, fun a ha => ?_⟩
    · simp only [writePc_mem]
      rw [h3, dif_pos ⟨by omega, by omega⟩]
      simp
    · simp only [writePc_mem]
      rw [h3, dif_neg (by omega)]

/-- `load` of a program that fits succeeds on canonical memory (R46). -/
theorem load_fits {bytes : List Byte} {s : State} (h : bytes.length ≤ 3584)
    (hm : Memory.wf s.mem = true) : ∃ t, load bytes s = .ok t := by
  unfold load
  rw [if_neg (by simp only [Config.progCapacity, Config.addrMax, Config.progBase]; omega)]
  obtain ⟨m', h1, -, -⟩ := memWriteBytes_ok (bytes := bytes) (addr := Config.progBase) hm
    (by simp only [Config.addrMax, Config.progBase]; omega)
  rw [h1]
  exact ⟨_, rfl⟩

theorem hostLoop_zero (s : State) : hostLoop 0 s = .stopped s := rfl

theorem hostLoop_fault {n : Nat} {s : State} {k : Fault} (h : step s = .fault k) :
    hostLoop (n + 1) s = .faulted k s := by
  simp [hostLoop, h]

theorem hostLoop_continued {n : Nat} {s t : State} (h : step s = .next t)
    (hc : t.lastStatus = .continued) : hostLoop (n + 1) s = hostLoop n t := by
  simp [hostLoop, h, hc]

theorem hostLoop_halted {n : Nat} {s t : State} (h : step s = .next t)
    (hc : t.lastStatus = .halted) : hostLoop (n + 1) s = .halted t := by
  simp [hostLoop, h, hc]

end Sys2Proof.Machine
end

