-- ==== Sys2Proof/Laws/PerInstr.lean ====
section
/-! SUPPORT. The family EncodingUnderRow: what the encoding of each well-formed instruction has to do
with the rows of the opcode map (spec/30_encoding.md R59). -/

namespace Sys2Proof.Laws.EncodingUnderRow

/-- The instruction's word matches the row of its variant and no other patterned row; an `Unknown`
word matches none. -/
def Statement (i : Instr) : Prop :=
  i.wf = true → ∀ r ∈ opcodeRows, r.covers (encode i) = true ↔ i.row = some r

theorem covers_word (r : OpcodeRow) (hr : r.mask = 0xFFFF#16) (w : Word) :
    r.covers w = true ↔ w = r.pattern := by
  have : w &&& 0xFFFF#16 = w := BitVec.and_allOnes
  simp [OpcodeRow.covers, hr, this]

theorem and_nibble_toNat (w : Word) : (w &&& 0xF000#16).toNat = w.toNat / 4096 * 4096 := by
  have hw := w.isLt
  have : (w &&& 0xF000#16) = (w >>> 12) <<< 12 := by
    ext k hk
    interval_cases k <;> simp
  rw [this]
  simp only [BitVec.toNat_shiftLeft, BitVec.toNat_ushiftRight, Nat.shiftLeft_eq,
    Nat.shiftRight_eq_div_pow]
  omega

theorem covers_nibble (r : OpcodeRow) (hr : r.mask = 0xF000#16) (w : Word) :
    r.covers w = true ↔ w.toNat / 4096 * 4096 = r.pattern.toNat := by
  simp only [OpcodeRow.covers, hr, beq_iff_eq]
  rw [← BitVec.toNat_inj, and_nibble_toNat]

/-- The five rows over one word, as arithmetic on the word's value. -/
theorem statement_iff (i : Instr) :
    (∀ r ∈ opcodeRows, r.covers (encode i) = true ↔ i.row = some r) ↔
      ((encode i).toNat = 0x00E0 ↔ i.row = some clsRow) ∧
      ((encode i).toNat = 0x00EE ↔ i.row = some retRow) ∧
      ((encode i).toNat = 0x00FD ↔ i.row = some haltRow) ∧
      ((encode i).toNat / 4096 = 1 ↔ i.row = some jpRow) ∧
      ((encode i).toNat / 4096 = 2 ↔ i.row = some callRow) := by
  simp only [opcodeRows, List.forall_mem_cons, List.not_mem_nil, false_imp_iff, implies_true, and_true]
  rw [covers_word clsRow rfl, covers_word retRow rfl, covers_word haltRow rfl,
    covers_nibble jpRow rfl, covers_nibble callRow rfl]
  simp only [← BitVec.toNat_inj, clsRow, retRow, haltRow, jpRow, callRow, BitVec.toNat_ofNat]
  have h1 : ∀ n : Nat, (n / 4096 * 4096 = 0x1000 % 2 ^ 16) = (n / 4096 = 1) := fun n => by
    apply propext; omega
  have h2 : ∀ n : Nat, (n / 4096 * 4096 = 0x2000 % 2 ^ 16) = (n / 4096 = 2) := fun n => by
    apply propext; omega
  rw [h1, h2]

theorem cls : Statement .cls := fun _ => (statement_iff _).mpr (by decide)

theorem ret : Statement .ret := fun _ => (statement_iff _).mpr (by decide)

theorem halt : Statement .halt := fun _ => (statement_iff _).mpr (by decide)

theorem jp (addr : Addr12) : Statement (.jp addr) := fun _ => by
  have ha := addr.isLt
  have he : (encode (.jp addr)).toNat = 4096 + addr.toNat := nibble_append_toNat 0x1#4 addr
  refine (statement_iff _).mpr ?_
  rw [he]
  simp only [Instr.row, Option.some.injEq, clsRow, retRow, haltRow, jpRow, callRow,
    OpcodeRow.mk.injEq]
  refine ⟨?_, ?_, ?_, ?_, ?_⟩ <;> simp <;> omega

theorem call (addr : Addr12) : Statement (.call addr) := fun _ => by
  have ha := addr.isLt
  have he : (encode (.call addr)).toNat = 2 * 4096 + addr.toNat := nibble_append_toNat 0x2#4 addr
  refine (statement_iff _).mpr ?_
  rw [he]
  simp only [Instr.row, Option.some.injEq, clsRow, retRow, haltRow, jpRow, callRow,
    OpcodeRow.mk.injEq]
  refine ⟨?_, ?_, ?_, ?_, ?_⟩ <;> simp <;> omega

theorem unknown (raw : Word) : Statement (.unknown raw) := fun hwf => by
  refine (statement_iff _).mpr ?_
  simp only [Instr.wf, inUnknownSpace, Bool.or_eq_true, Bool.and_eq_true, decide_eq_true_eq, bne_iff_ne] at hwf
  simp only [Instr.row, encode, reduceCtorEq, iff_false]
  omega

end Sys2Proof.Laws.EncodingUnderRow
end

