-- ==== Sys2Proof/Machine/Flags.lean ====
section
/-! DEFINITION. The hardware has no flags: "The hardware has no status flags, condition codes or
predicates" (spec/10_state.md R16, decision D29), and VF is an ordinary general register. So this
file defines nothing: no instruction computes a flag. -/
end

