-- ==== Sys2Proof/Tests/Slice0.lean ====
section
/-! SUPPORT. The model's own tests. Expected results are the vectors of spec/95_test_vectors.md (named
by their ids there) and words written out from the encodings of spec/30_encoding.md R59; the witnesses
show that the hypotheses of each statement of Certificates/Slice0/Obligations.lean can be met. -/

namespace Sys2Proof.Tests

open Sys2Proof.Machine

/-! ## Helpers -/

/-- Construction with PC, SP, every slot and the word at PC set. -/
def stateAt (pc : Word) (sp : Fin 17) (slot : Word) (w : Nat) : State :=
  { State.reset with pc := pc, sp := sp, stack := Vector.replicate 16 slot }.withFetchWord 16 w

/-- The outcome is a next state with a property. -/
def nextSat (o : Host.Outcome State Fault Refusal) (p : State → Bool) : Bool :=
  match o with
  | .next t => p t
  | .fault _ => false
  | .refused _ => false

/-- The outcome is this fault. -/
def faultIs (o : Host.Outcome State Fault Refusal) (k : Fault) : Bool :=
  match o with
  | .next _ => false
  | .fault k' => decide (k' = k)
  | .refused _ => false

/-- The load succeeds with a state that has a property. -/
def loadSat (o : Except Fault State) (p : State → Bool) : Bool :=
  match o with
  | .ok t => p t
  | .error _ => false

/-! ## Well-formedness: each check refuses an ill-formed term -/

theorem test_wf_refuses_cls_word : (Instr.unknown 0x00E0#16).wf = false := by decide
theorem test_wf_refuses_ret_word : (Instr.unknown 0x00EE#16).wf = false := by decide
theorem test_wf_refuses_halt_word : (Instr.unknown 0x00FD#16).wf = false := by decide
theorem test_wf_refuses_jump_word : (Instr.unknown 0x1000#16).wf = false := by decide
theorem test_wf_refuses_call_word : (Instr.unknown 0x2FFF#16).wf = false := by decide
theorem test_wf_accepts_bounds :
    (Instr.unknown 0x0000#16).wf ∧ (Instr.unknown 0x0FFF#16).wf ∧ (Instr.unknown 0x3000#16).wf ∧
      (Instr.unknown 0xFFFF#16).wf := by decide

/-! ## Decoding: words written out bit by bit from R59 and vectors of 95 section 2.1 -/

theorem test_decode_cls : decodeWord 0b0000_0000_1110_0000#16 = .cls := by decide
theorem test_decode_ret : decodeWord 0b0000_0000_1110_1110#16 = .ret := by decide
theorem test_decode_halt : decodeWord 0b0000_0000_1111_1101#16 = .halt := by decide
theorem test_decode_jp : decodeWord 0b0001_0000_1110_0000#16 = .jp 0x0E0#12 := by decide
theorem test_decode_call : decodeWord 0b0010_1111_1111_1111#16 = .call 0xFFF#12 := by decide
theorem test_decode_unknown : decodeWord 0b0000_0000_1110_1111#16 = .unknown 0x00EF#16 := by decide
theorem test_decode_unknown_upper : decodeWord 0x3000#16 = .unknown 0x3000#16 := by decide
theorem test_decode_bytes :
    decode [0x22#8, 0x06#8, 0x00#8] = .ok (.call 0x206#12, [0x00#8]) := by rfl
theorem test_decode_truncated : decode [0x22#8] = .error .truncated := by rfl
theorem test_encode_bytes : encodeBytes (.call 0x005#12) = [0x20#8, 0x05#8] := by decide
theorem test_table_word : decodeTableWord 16 0x1201 = some (.jp 0x201#12) := by decide

/-- 95 section 2.1: the field views of 0xABCD. -/
theorem test_field_views :
    fieldViews 0xABCD#16 = ⟨0xA#4, 0xBCD#12, 0xB#4, 0xC#4, 0xD#4, 0xCD#8⟩ := by decide

/-- R64: `JP 0x1000` is an assembly error; `JP 0x201` is the word 0x1201. -/
theorem test_assemble_jp :
    assemble (.jp 0x201) = .ok 0x1201#16 ∧ assemble (.jp 0x1000) = .error .operandTooLarge :=
  ⟨rfl, rfl⟩

/-! ## Construction (95 section 2.10, S2, S3) -/

theorem test_reset_font_ends :
    Memory.read State.reset.mem 0x000 = 0xF0#8 ∧ Memory.read State.reset.mem 0x001 = 0x90#8 ∧
      Memory.read State.reset.mem 0x04F = 0x80#8 ∧ Memory.read State.reset.mem 0x050 = 0x00#8 ∧
      Memory.read State.reset.mem 0xFFF = 0x00#8 := by decide

theorem test_font_size : fontTable.length = 80 ∧ Config.fontBase + 80 ≤ 0x200 := by decide

theorem test_reset_memory_wf : Memory.wf State.reset.mem = true := by decide

/-! ## Load (95 section 2.9) -/

/-- L-4, the second load over the first: 11 22 CC DD. -/
theorem test_load_over :
    loadSat (load [0xAA#8, 0xBB#8, 0xCC#8, 0xDD#8] State.reset) (fun t =>
      loadSat (load [0x11#8, 0x22#8] t) (fun u =>
        (List.range 4).map (fun k => Memory.read u.mem (0x200 + k)) == [0x11#8, 0x22#8, 0xCC#8, 0xDD#8]
          && u.pc == 0x200#16)) = true := by decide

/-- L-3: 3585 bytes are too large. -/
theorem test_load_too_large (s : State) :
    load (List.replicate 3585 0x00#8) s = .error .programTooLarge :=
  load_too_large (by rw [List.length_replicate]; omega)

/-- Writing back what an address reads as unlisted removes the cell. -/
theorem test_write_removes_cell :
    Memory.write (Memory.write [] 0x200 0xAA#8) 0x200 0x00#8 = [] := by decide

/-! ## One step (95 sections 2.2 to 2.8) -/

/-- D-1. -/
theorem test_cls :
    nextSat (step (stateAt 0x200#16 0 0#16 0x00E0)) (fun t =>
      t.pc == 0x202#16 && t.display == [.clear] && t.lastWord == 0x00E0#16) = true := by decide

/-- F5: CLS at an odd address. -/
theorem test_cls_odd_pc :
    nextSat (step (stateAt 0x201#16 0 0#16 0x00E0)) (fun t => t.pc == 0x203#16) = true := by decide

/-- R-1, with RET at 0x208. -/
theorem test_ret :
    nextSat (step (stateAt 0x208#16 1 0x200#16 0x00EE)) (fun t =>
      t.pc == 0x202#16 && t.sp == 0 && t.stack[0] == 0x200#16) = true := by decide

/-- R-2. -/
theorem test_ret_empty :
    faultIs (step (stateAt 0x200#16 0 0#16 0x00EE)) .stackUnderflow = true := by decide

/-- R-5: the literal reading of decision D5 resumes at the CALL. -/
theorem test_ret_literal_reading :
    nextSat (finish (handleRet false (stateAt 0x208#16 1 0x200#16 0x00EE))) (fun t =>
      t.pc == 0x200#16 && t.sp == 0) = true := by decide

/-- H-1. -/
theorem test_halt :
    nextSat (step (stateAt 0x202#16 0 0#16 0x00FD)) (fun t =>
      t.pc == 0x202#16 && t.lastStatus == .halted && t.lastWord == 0x00FD#16) = true := by decide

/-- F1: JP fetched at 0xFFE. -/
theorem test_jp_at_top :
    nextSat (step (stateAt 0xFFE#16 0 0#16 0x1234)) (fun t =>
      t.pc == 0x234#16 && t.lastWord == 0x1234#16) = true := by decide

/-- J-5: a jump leaves the stack alone. -/
theorem test_jp_keeps_stack :
    nextSat (step (stateAt 0x200#16 3 0x123#16 0x1300)) (fun t =>
      t.pc == 0x300#16 && t.sp == 3 && t.stack[3] == 0x123#16) = true := by decide

/-- C-2: the sixteenth call. -/
theorem test_call_last_slot :
    nextSat (step (stateAt 0x300#16 15 0#16 0x2400)) (fun t =>
      t.stack[15] == 0x300#16 && t.stack[14] == 0#16 && t.sp == 16 && t.pc == 0x400#16) = true := by
  decide

/-- C-3: the seventeenth. -/
theorem test_call_full :
    faultIs (step (stateAt 0x300#16 16 0#16 0x2400)) .stackOverflow = true := by decide

/-- U-1. -/
theorem test_unknown :
    faultIs (step (stateAt 0x200#16 0 0#16 0x5000)) (.unimplementedOpcode 0x5000#16) = true := by decide

/-- F2 and F4: the fetch faults at 0xFFF and does not wrap at 0xFFFF. -/
theorem test_fetch_top :
    faultIs (step { State.reset with pc := 0xFFF#16 }) .memoryOutOfBounds = true ∧
      faultIs (step { State.reset with pc := 0xFFFF#16 }) .memoryOutOfBounds = true := by decide

/-- F7: a cycle with no program. -/
theorem test_boot_without_program :
    faultIs (step State.reset) (.unimplementedOpcode 0x0000#16) = true := by decide

/-! ## Witnesses: each statement's hypotheses can be met -/

theorem witness_PushStoresAtSpThenIncrementsOrOverflows :
    (stateAt 0x200#16 16 0#16 0).sp.val = 16 ∧ (stateAt 0x200#16 15 0#16 0).sp.val ≠ 16 := by decide

theorem witness_PopReturnsTopSlotOrUnderflows :
    (stateAt 0x200#16 0 0#16 0).sp.val = 0 ∧ (stateAt 0x200#16 16 0#16 0).sp.val ≠ 0 := by decide

theorem witness_SixteenPushesFillTheStackAndTheNextFaults :
    (List.replicate 16 0x200#16).length = 16 ∧ State.reset.sp.val = 0 := by decide

theorem witness_AccessAboveTopOfMemoryFaults :
    memRead [] 0xFFF = .ok 0x00#8 ∧ memRead [] 0x1000 = .error .memoryOutOfBounds := ⟨rfl, rfl⟩

/-- The two clauses at their bounds: 0xFFF is written, 0x1000 faults. -/
theorem witness_MemWriteStoresOneByteAndNothingElse :
    Memory.wf [] = true ∧
      (∃ m', memWrite [] 0xFFF 0x12#8 = .ok m' ∧ Memory.wf m' = true ∧
        Memory.read m' 0xFFF = 0x12#8) ∧
      0xFFF < 0x1000 ∧ memWrite [] 0x1000 0x12#8 = .error .memoryOutOfBounds :=
  ⟨rfl, ⟨_, rfl, by decide, by decide⟩, by decide, rfl⟩

/-- Two orders of writing give one canonical memory that reads alike. -/
theorem witness_CanonicalMemoriesThatReadAlikeAreEqual :
    let m := Memory.write (Memory.write [] 0x300 0x01#8) 0x201 0x02#8
    let m' := Memory.write (Memory.write [] 0x201 0x02#8) 0x300 0x01#8
    Memory.wf m = true ∧ Memory.wf m' = true ∧ m = m' := by decide

theorem witness_LoadInstallsProgramExactlyWhenItFits :
    Memory.wf State.reset.mem = true ∧ (List.replicate 3584 0x00#8).length ≤ 3584 ∧
      3584 < (List.replicate 3585 0x00#8).length := by
  refine ⟨rfl, ?_, ?_⟩ <;> rw [List.length_replicate]
  omega

theorem witness_LoadChangesOnlyProgramBytesAndPc :
    Memory.wf State.reset.mem = true ∧ ∃ t, load [0x00#8, 0xFD#8] State.reset = .ok t :=
  ⟨rfl, load_fits (by decide) rfl⟩

theorem witness_DecodeOfEncodeIsTheInstruction :
    Instr.wf .cls ∧ Instr.wf .ret ∧ Instr.wf .halt ∧ Instr.wf (.jp 0xFFF#12) ∧
      Instr.wf (.call 0x000#12) ∧ Instr.wf (.unknown 0xFFFF#16) := by decide

theorem witness_OpcodeRowsAreDisjointAndDecodingIsInjective :
    jpRow ∈ opcodeRows ∧ jpRow.covers 0x1000#16 = true ∧ clsRow ∈ opcodeRows ∧
      clsRow.covers 0x00E0#16 = true := by decide

theorem witness_AssemblingInvertsDisassembling :
    assemble (.call 0xFFF) = .ok 0x2FFF#16 ∧ disassemble 0x2FFF#16 = .call 0xFFF ∧
      assemble (.call 0x1000) = .error .operandTooLarge := ⟨rfl, rfl, rfl⟩

theorem witness_FetchAtTopOfMemoryFaults :
    0xFFF ≤ ({ State.reset with pc := 0xFFF#16 } : State).pc.toNat ∧
      ({ State.reset with pc := 0xFFE#16 } : State).pc.toNat + 1 ≤ 0xFFF := by decide

theorem witness_StepRunsTheDecodedInstruction :
    let s := stateAt 0xFFE#16 0 0#16 0x1234
    s.pc.toNat + 1 ≤ 0xFFF ∧
      decode [Memory.read s.mem s.pc.toNat, Memory.read s.mem (s.pc.toNat + 1)] =
        .ok (.jp 0x234#12, []) ∧
      exec (.jp 0x234#12) s = .next { s with pc := 0x234#16 } := ⟨by decide, rfl, rfl⟩

/-- Every clause of the fault classification is reached, with SP at its bounds. -/
theorem witness_CycleFaultsExactlyWhenTheSpecSays :
    faultIs (step { State.reset with pc := 0xFFF#16 }) .memoryOutOfBounds ∧
      faultIs (step (stateAt 0x200#16 0 0#16 0x00EE)) .stackUnderflow ∧
      faultIs (step (stateAt 0x200#16 16 0#16 0x2FFF)) .stackOverflow ∧
      faultIs (step (stateAt 0x200#16 0 0#16 0x0FFF)) (.unimplementedOpcode 0x0FFF#16) := by decide

theorem witness_TerminalCyclesRepeat :
    (cycle (stateAt 0x202#16 0 0#16 0x00FD)).1 = some (.completed .halted) ∧
      (cycle State.reset).1 = some (.fault (.unimplementedOpcode 0x0000#16)) := by decide

theorem witness_NoCycleWritesMemoryOrDataRegisters :
    ∃ t, step (stateAt 0x200#16 3 0x210#16 0x00EE) = .next t ∧ t.pc = 0x212#16 := ⟨_, rfl, rfl⟩

/-- The invariant holds of a state with a program in memory and a call on the stack, which steps. -/
theorem witness_StepKeepsInvariant :
    Inv (stateAt 0x200#16 1 0x300#16 0x00EE) ∧
      ∃ t, step (stateAt 0x200#16 1 0x300#16 0x00EE) = .next t := by
  have hmem : (stateAt 0x200#16 1 0x300#16 0x00EE).mem = [(0x201, 0xEE#8)] := by decide
  refine ⟨⟨by decide, fun a ha => ?_, by decide, by decide⟩, ⟨_, rfl⟩⟩
  have ha' : a < 0x200 := ha
  rw [hmem, Memory.read_cons, if_neg (by omega), Memory.read_nil]

theorem witness_LoadKeepsInvariant :
    Inv State.reset ∧ ∃ t, load [0x12#8, 0x00#8] State.reset = .ok t :=
  ⟨⟨rfl, fun _ _ => rfl, by decide, by decide⟩, load_fits (by decide) rfl⟩

/-- States that differ in V, I, a free slot, last_word, the trace and the recorded status, and agree
on what a cycle reads. -/
theorem witness_CycleReadsOnlyMemoryPcAndOccupiedSlots :
    let s := stateAt 0x200#16 1 0x300#16 0x00EE
    let s' : State := { s with
      v := Vector.replicate 16 0xAB#8, i := 0x1234#16, stack := s.stack.set 5 0x7#16,
      lastWord := 0x2222#16, display := [.clear], lastStatus := .halted }
    s ≠ s' ∧ s.mem = s'.mem ∧ s.pc = s'.pc ∧ s.sp = s'.sp ∧
      (∀ k : Fin 16, k.val < s.sp.val → s.stack[k.val] = s'.stack[k.val]) := by decide

theorem witness_DisplayRequestsComeFromClsAlone :
    nextSat (step (stateAt 0x200#16 0 0#16 0x00E0)) (fun t => t.display == [.clear]) ∧
      nextSat (step (stateAt 0x200#16 0 0#16 0x1200)) (fun t => t.display == []) := by decide

/-- The highest slot with a popped 0xFFE, and the empty stack. -/
theorem witness_RetPopsAndResumesAfterTheCall :
    ((15 : Fin 16).val + 1 = (stateAt 0x200#16 16 0xFFE#16 0x00EE).sp.val ∧
      (stateAt 0x200#16 16 0xFFE#16 0x00EE).stack[15] = 0xFFE#16 ∧
      fetch (stateAt 0x200#16 16 0xFFE#16 0x00EE) = .ok 0x00EE#16) ∧
      (stateAt 0x200#16 0 0#16 0x00EE).sp.val = 0 ∧
      fetch (stateAt 0x200#16 0 0#16 0x00EE) = .ok 0x00EE#16 :=
  ⟨⟨by decide, by decide, rfl⟩, by decide, rfl⟩

/-- A jump to 0xFFF, and a jump to itself. -/
theorem witness_JumpSetsPcToItsAddressOperand :
    (fetch (stateAt 0x200#16 0 0#16 0x1FFF) = .ok 0x1FFF#16 ∧ 0x1FFF#16 &&& 0xF000#16 = 0x1000#16) ∧
      fetch (stateAt 0x200#16 0 0#16 0x1200) = .ok 0x1200#16 ∧
      0x1200#16 &&& 0xF000#16 = 0x1000#16 ∧
      (stateAt 0x200#16 0 0#16 0x1200).pc.toNat = (0x1200#16).toNat % 4096 :=
  ⟨⟨rfl, by decide⟩, rfl, by decide, by decide⟩

/-- The last free slot, the full stack, and a call to itself from an empty stack. -/
theorem witness_CallPushesItsOwnAddressAndJumps :
    0x2200#16 &&& 0xF000#16 = 0x2000#16 ∧
      (fetch (stateAt 0x200#16 15 0#16 0x2200) = .ok 0x2200#16 ∧
        (stateAt 0x200#16 15 0#16 0x2200).sp.val < 16) ∧
      (fetch (stateAt 0x200#16 16 0#16 0x2200) = .ok 0x2200#16 ∧
        (stateAt 0x200#16 16 0#16 0x2200).sp.val = 16) ∧
      fetch (stateAt 0x200#16 0 0#16 0x2200) = .ok 0x2200#16 ∧
      (stateAt 0x200#16 0 0#16 0x2200).sp.val = 0 ∧
      (stateAt 0x200#16 0 0#16 0x2200).pc.toNat = (0x2200#16).toNat % 4096 :=
  ⟨by decide, ⟨rfl, by decide⟩, ⟨rfl, by decide⟩, rfl, by decide, by decide⟩

/-- `CALL 0x206` with `RET` at 0x206 (program P1 without its CLS). -/
theorem witness_ReturnAfterCallResumesPastTheCall :
    ∃ s t, load [0x22#8, 0x06#8, 0x00#8, 0xFD#8, 0x00#8, 0x00#8, 0x00#8, 0xEE#8] State.reset = .ok s ∧
      fetch s = .ok 0x2206#16 ∧ step s = .next t ∧ fetch t = .ok 0x00EE#16 :=
  ⟨_, _, rfl, rfl, rfl, rfl⟩

theorem witness_UnknownWordFaultsWithTheWholeWord :
    fetch (stateAt 0x200#16 0 0#16 0x3000) = .ok 0x3000#16 ∧ inUnknownSpace 0x3000#16 = true :=
  ⟨rfl, by decide⟩

/-- Every instruction of the two frames has a next state somewhere. -/
theorem witness_Frames :
    nextSat (exec .cls State.reset) (fun _ => true) ∧ nextSat (exec .halt State.reset) (fun _ => true) ∧
      nextSat (exec (.jp 0xFFF#12) State.reset) (fun _ => true) ∧
      nextSat (exec .ret (stateAt 0x200#16 1 0#16 0)) (fun _ => true) ∧
      nextSat (exec (.call 0x000#12) (stateAt 0x200#16 15 0#16 0)) (fun _ => true) := by decide

theorem witness_PlacedTableWordIsFetchedNext :
    fetch (State.reset.withFetchWord 16 0xFFFF) = .ok 0xFFFF#16 ∧
      fetch (({ State.reset with pc := 0xFFF#16 } : State).withFetchWord 16 0x00FD) = .ok 0x00FD#16 :=
  ⟨rfl, rfl⟩

theorem witness_HostLoopEndsAtTheFirstTerminalStatus :
    (∃ t, hostLoop 1 (stateAt 0x200#16 0 0#16 0x00FD) = .halted t) ∧
      ∃ t, hostLoop 1 State.reset = .faulted (.unimplementedOpcode 0x0000#16) t :=
  ⟨⟨_, rfl⟩, ⟨_, rfl⟩⟩

/-- At 0x200 and at the top, CLS's two clauses. -/
theorem witness_ClsEmitsOneClearAndAdvances :
    fetch (stateAt 0xFFE#16 0 0#16 0x00E0) = .ok 0x00E0#16 ∧
      (stateAt 0xFFE#16 0 0#16 0x00E0).pc = 0xFFE#16 := ⟨rfl, by decide⟩

theorem witness_HaltReturnsHaltedAndKeepsPc :
    fetch (stateAt 0x20C#16 3 0#16 0x00FD) = .ok 0x00FD#16 := rfl

theorem witness_LoadedBytesAreFetchedAsBigEndianWords :
    Memory.wf State.reset.mem = true ∧
      loadSat (load [0x12#8, 0x34#8, 0x56#8, 0x78#8] State.reset)
        (fun t => Memory.read t.mem 0x200 == 0x12#8) = true := by decide

theorem witness_FetchedWordIsTheTwoBytesAtPc :
    (stateAt 0xFFE#16 0 0#16 0xAAFF).pc.toNat + 1 ≤ 0xFFF ∧
      fetch (stateAt 0xFFE#16 0 0#16 0xAAFF) = .ok 0xAAFF#16 := ⟨by decide, rfl⟩

theorem witness_DecodeTakesTwoBytesHighByteFirst :
    65535 < 65536 ∧ decodeTableWord 16 65535 = some (.unknown 0xFFFF#16) := by decide

/-- The bound of the read-out's memory clause: 0xFFF meets it, 0x1000 does not. -/
theorem witness_ReadOutReportsTheWholeStateUnchanged : 0xFFF < 4096 ∧ ¬ 0x1000 < 4096 := by decide

end Sys2Proof.Tests
end

section
/-! The call stack (R22 to R26): what one push, one pop and a list of pushes do. -/

namespace Sys2Proof.Machine

/-! ## Pushing a list of words -/

/-- Pushing `as` in order, in the words of R26. -/
def pushAll (as : List Word) (s : State) : Except Fault State :=
  as.foldlM (fun u a => push a u) s

@[simp] theorem pushAll_nil (s : State) : pushAll [] s = .ok s := rfl

theorem pushAll_cons {a : Word} {as : List Word} {s u : State} (h : push a s = .ok u) :
    pushAll (a :: as) s = pushAll as u := by
  simp only [pushAll, List.foldlM_cons, h]
  rfl

/-- Words that fit are all pushed: the slots from the old SP on hold them in order, and every other
slot and field keeps its value. Stated for every SP, so that the induction goes through. -/
theorem pushAll_room {as : List Word} {s : State} (hroom : s.sp.val + as.length ≤ 16) :
    ∃ t, pushAll as s = .ok t ∧ t.sp.val = s.sp.val + as.length ∧
      (∀ k : Fin 16, t.stack[k.val] =
        if k.val < s.sp.val then s.stack[k.val] else as.getD (k.val - s.sp.val) s.stack[k.val]) ∧
      t = { s with stack := t.stack, sp := t.sp } := by
  induction as generalizing s with
  | nil => exact ⟨s, by simp⟩
  | cons a as ih =>
    rw [List.length_cons] at hroom ⊢
    obtain ⟨u, hu⟩ := push_room (a := a) (s := s) (by omega)
    obtain ⟨-, huSp, huSlot, huFrame⟩ := push_ok hu
    obtain ⟨t, ht, htSp, htSlot, htFrame⟩ := ih (s := u) (by omega)
    refine ⟨t, (pushAll_cons hu).trans ht, by omega, fun k => ?_, ?_⟩
    · rw [htSlot, huSlot, huSp]
      obtain hlt | heq | hgt := Nat.lt_trichotomy k.val s.sp.val
      · rw [if_pos (by omega), if_neg (by omega), if_pos hlt]
      · simp [heq]
      · have hsub : k.val - s.sp.val = (k.val - (s.sp.val + 1)) + 1 := by omega
        rw [if_neg (by omega), if_neg (by omega), if_neg (by omega), hsub, List.getD_cons_succ]
    · rw [huFrame] at htFrame
      exact htFrame

/-! ## The obligations -/

/-- Settles O7: the sixteen words fit an empty stack (`pushAll_room`), and SP = 16 then refuses the
next push. -/
theorem sixteenPushesFillTheStackAndTheNextFaults :
    Obligations.SixteenPushesFillTheStackAndTheNextFaults := by
  intro s as hlen hempty
  obtain ⟨t, ht, hsp, hslot, -⟩ := pushAll_room (as := as) (s := s) (by omega)
  have hfull : t.sp.val = 16 := by omega
  refine ⟨t, ht, hfull, fun k => ?_, fun a => push_full hfull⟩
  rw [hslot, if_neg (by omega), hempty, Nat.sub_zero, List.getD_eq_getElem]

/-- Settles O5, by the stack's laws on a full stack and below the capacity. -/
theorem pushStoresAtSpThenIncrementsOrOverflows :
    Obligations.PushStoresAtSpThenIncrementsOrOverflows := by
  refine fun a s => ⟨push_full, fun hroom => ?_⟩
  obtain ⟨t, ht⟩ := push_room (a := a) (s := s) (by omega)
  obtain ⟨-, hsp, hslot, hframe⟩ := push_ok ht
  exact ⟨t, ht, hsp, hslot, hframe⟩

/-- Settles O6, by the stack's laws on an empty stack and above it. -/
theorem popReturnsTopSlotOrUnderflows : Obligations.PopReturnsTopSlotOrUnderflows := by
  refine fun s => ⟨pop_empty, fun hfilled => ?_⟩
  obtain ⟨a, t, ht⟩ := pop_room (s := s) (by omega)
  obtain ⟨-, hsp, htop, hframe⟩ := pop_ok ht
  exact ⟨a, t, ht, hsp, fun k hk => htop k (by omega), hframe⟩

end Sys2Proof.Machine
end

section
/-! Memory and `load` (R33, R45, R46): the bound of a byte access and the bound of a program. -/

namespace Sys2Proof.Machine

/-! ## When and how a load succeeds -/

/-- The size limit is exact (R46): on canonical memory a program within the capacity always loads
(`load_fits`), so the fault means that the limit was passed. -/
theorem load_eq_programTooLarge_iff {bytes : List Byte} {s : State} (hm : Memory.wf s.mem = true) :
    load bytes s = .error .programTooLarge ↔ 3584 < bytes.length := by
  refine ⟨fun herr => ?_, load_too_large⟩
  by_contra hfits
  obtain ⟨t, hok⟩ := load_fits (bytes := bytes) (Nat.le_of_not_lt hfits) hm
  rw [hok] at herr
  cases herr

/-- A load of no byte passes the size test and runs no iteration of R45's loop, so PC alone is
written, whatever the memory. -/
theorem load_nil (s : State) : load [] s = .ok { s with pc := 0x200#16 } := rfl

/-! ## The obligations -/

/-- Settles O11: the size limit is `load_eq_programTooLarge_iff`, and what a program that fits
installs is what a load that succeeds does (`load_ok`). -/
theorem loadInstallsProgramExactlyWhenItFits :
    Obligations.LoadInstallsProgramExactlyWhenItFits := by
  refine fun s bytes hm => ⟨load_eq_programTooLarge_iff hm, fun hfits => ?_, load_nil s⟩
  obtain ⟨t, hok⟩ := load_fits hfits hm
  obtain ⟨-, hframe, -, hbytes, -⟩ := load_ok hok hm
  have hpc : t.pc = 0x200#16 := by rw [hframe]
  exact ⟨t, hok, hpc, hbytes⟩

/-- Settles O8, by the laws of the checked accessors on either side of ADDR_MAX. -/
theorem accessAboveTopOfMemoryFaults : Obligations.AccessAboveTopOfMemoryFaults :=
  fun _ _ _ => ⟨fun hin => ⟨memRead_of_le hin, _, memWrite_of_le hin⟩,
    fun hout => ⟨memRead_of_gt hout, memWrite_of_gt hout⟩⟩

end Sys2Proof.Machine
end

section
/-! Encoding (R55, R56): a decoded variant keeps the word it came from, the six field views of a word
as arithmetic on its value, and the two bytes of a fetched word. -/

namespace Sys2Proof

/-! ## The word of a decoded variant -/

/-- A word in the family of the identifier nibble `k` is that nibble above its address operand. -/
theorem nibble_append_nnnField {k : BitVec 4} {w : Word} (hk : w.toNat / 4096 = k.toNat) :
    (k ++ nnnField w : BitVec (4 + 12)) = w := by
  apply BitVec.eq_of_toNat_eq
  rw [nibble_append_toNat, nnnField_toNat]
  omega

/-- Decoding loses nothing of the word (R58, R60): a fixed word is its variant's, an address operand
stands below its family's nibble, and `Unknown` keeps the word whole. -/
@[simp] theorem encode_decodeWord (w : Word) : encode (decodeWord w) = w := by
  obtain ⟨rfl, -⟩ | ⟨rfl, -⟩ | ⟨rfl, -⟩ | ⟨hjp, hd⟩ | ⟨hcall, hd⟩ | ⟨-, hd⟩ := decodeWord_cases w
  · rfl
  · rfl
  · rfl
  · rw [hd]
    exact nibble_append_nnnField hjp
  · rw [hd]
    exact nibble_append_nnnField hcall
  · rw [hd]
    rfl

/-- The views a decoded variant exposes are those of its word (R56). -/
@[simp] theorem views_decodeWord (w : Word) : (decodeWord w).views = fieldViews w :=
  congrArg fieldViews (encode_decodeWord w)

/-! ## The field views as arithmetic, beside `idField_toNat` and `nnnField_toNat` -/

theorem xField_toNat (w : Word) : (xField w).toNat = w.toNat / 256 % 16 := by
  simp [xField, Nat.shiftRight_eq_div_pow]

theorem yField_toNat (w : Word) : (yField w).toNat = w.toNat / 16 % 16 := by
  simp [yField, Nat.shiftRight_eq_div_pow]

theorem nField_toNat (w : Word) : (nField w).toNat = w.toNat % 16 := by
  simp [nField]

/-- The immediate byte is the word's low byte. -/
theorem kkField_toNat (w : Word) : (kkField w).toNat = w.toNat % 256 :=
  loByte_toNat w

end Sys2Proof

namespace Sys2Proof.Machine

/-! ## The obligations -/

/-- Settles O14: the variant exposes the views of the word it was decoded from (`views_decodeWord`),
and each view is its bits of that word. -/
theorem everyVariantExposesTheSixFieldViews : Obligations.EveryVariantExposesTheSixFieldViews := by
  intro w
  rw [views_decodeWord]
  exact ⟨idField_toNat w, nnnField_toNat w, xField_toNat w, yField_toNat w, nField_toNat w,
    kkField_toNat w⟩

/-- Settles O23: within the bound the fetch puts the two bytes at PC together (`fetch_in`), and a word
of two bytes gives each of them back. -/
theorem fetchedWordIsTheTwoBytesAtPc : Obligations.FetchedWordIsTheTwoBytesAtPc :=
  ⟨fun _ hin => ⟨_, fetch_in hin, hiByte_wordOfBytes _ _, loByte_wordOfBytes _ _⟩, by decide⟩

end Sys2Proof.Machine
end

section
/-! Decoding (R58 to R65): the decoder inverts the encoder, so a word decodes to a well-formed
instruction exactly when it is that instruction's word; the rows of the opcode map and the assembler
lines follow. -/

namespace Sys2Proof

open Laws

/-! ## The variant of a word, from where the word lies -/

theorem decodeWord_of_nibble_one {w : Word} (h : w.toNat / 4096 = 1) :
    decodeWord w = .jp (nnnField w) := by
  obtain ⟨rfl, -⟩ | ⟨rfl, -⟩ | ⟨rfl, -⟩ | ⟨-, hd⟩ | ⟨h2, -⟩ | ⟨hu, -⟩ := decodeWord_cases w
  · simp at h
  · simp at h
  · simp at h
  · exact hd
  · omega
  · rw [inUnknownSpace_iff] at hu
    omega

theorem decodeWord_of_nibble_two {w : Word} (h : w.toNat / 4096 = 2) :
    decodeWord w = .call (nnnField w) := by
  obtain ⟨rfl, -⟩ | ⟨rfl, -⟩ | ⟨rfl, -⟩ | ⟨h1, -⟩ | ⟨-, hd⟩ | ⟨hu, -⟩ := decodeWord_cases w
  · simp at h
  · simp at h
  · simp at h
  · omega
  · exact hd
  · rw [inUnknownSpace_iff] at hu
    omega

theorem decodeWord_of_inUnknownSpace {w : Word} (h : inUnknownSpace w = true) :
    decodeWord w = .unknown w := by
  have hu := (inUnknownSpace_iff w).mp h
  obtain ⟨rfl, -⟩ | ⟨rfl, -⟩ | ⟨rfl, -⟩ | ⟨h1, -⟩ | ⟨h2, -⟩ | ⟨-, hd⟩ := decodeWord_cases w
  · simp at hu
  · simp at hu
  · simp at hu
  · omega
  · omega
  · exact hd

/-! ## The decoder inverts the encoder -/

/-- The address operand is what stands below the identifier nibble (R56). -/
theorem nnnField_nibble_append (k : BitVec 4) (addr : Addr12) : nnnField (k ++ addr) = addr := by
  have haddr := addr.isLt
  have hword := nibble_append_toNat k addr
  apply BitVec.eq_of_toNat_eq
  rw [nnnField_toNat]
  omega

/-- R65: decoding undoes encoding on every instruction some word stands for. -/
theorem decodeWord_encode {i : Instr} (hwf : i.wf = true) : decodeWord (encode i) = i := by
  cases i with
  | cls => rfl
  | ret => rfl
  | halt => rfl
  | jp addr =>
    have haddr := addr.isLt
    have hword : (encode (.jp addr)).toNat = 4096 + addr.toNat := nibble_append_toNat 0x1#4 addr
    rw [decodeWord_of_nibble_one (by omega)]
    exact congrArg Instr.jp (nnnField_nibble_append 0x1#4 addr)
  | call addr =>
    have haddr := addr.isLt
    have hword : (encode (.call addr)).toNat = 2 * 4096 + addr.toNat :=
      nibble_append_toNat 0x2#4 addr
    rw [decodeWord_of_nibble_two (by omega)]
    exact congrArg Instr.call (nnnField_nibble_append 0x2#4 addr)
  | unknown raw => exact decodeWord_of_inUnknownSpace hwf

/-- The two bytes of an instruction's word decode as the word does, whatever follows them. -/
theorem decode_encodeBytes_append (i : Instr) (rest : List Byte) :
    decode (encodeBytes i ++ rest) = .ok (decodeWord (encode i), rest) := by
  simp [encodeBytes, decode]

/-- R61: every word decodes to a well-formed instruction. -/
theorem wf_decodeWord (w : Word) : (decodeWord w).wf = true := by
  obtain ⟨-, hd⟩ | ⟨-, hd⟩ | ⟨-, hd⟩ | ⟨-, hd⟩ | ⟨-, hd⟩ | ⟨hu, hd⟩ := decodeWord_cases w <;> rw [hd]
  · rfl
  · rfl
  · rfl
  · rfl
  · rfl
  · exact hu

/-- A word decodes to a well-formed instruction exactly when it is that instruction's word. -/
theorem decodeWord_eq_iff {w : Word} {i : Instr} (hwf : i.wf = true) :
    decodeWord w = i ↔ w = encode i :=
  ⟨fun hd => by rw [← hd, encode_decodeWord], fun hw => by rw [hw, decodeWord_encode hwf]⟩

theorem decodeWord_injective : Function.Injective decodeWord :=
  Function.LeftInverse.injective encode_decodeWord

theorem decodeWord_eq_unknown_self_iff (w : Word) :
    decodeWord w = .unknown w ↔ inUnknownSpace w = true :=
  ⟨fun hd => by simpa [hd, Instr.wf] using wf_decodeWord w, decodeWord_of_inUnknownSpace⟩

theorem decodeWord_eq_unknown_iff {w raw : Word} :
    decodeWord w = .unknown raw ↔ raw = w ∧ inUnknownSpace w = true := by
  constructor
  · intro hd
    obtain rfl : w = raw := by simpa [hd, encode, eq_comm] using encode_decodeWord w
    exact ⟨rfl, (decodeWord_eq_unknown_self_iff w).mp hd⟩
  · rintro ⟨rfl, hu⟩
    exact decodeWord_of_inUnknownSpace hu

/-! ## The rows of the opcode map (R59, R60) -/

/-- Every well-formed instruction's word matches the row of its variant alone. -/
theorem encodingUnderRow (i : Instr) : EncodingUnderRow.Statement i := by
  cases i with
  | cls => exact EncodingUnderRow.cls
  | ret => exact EncodingUnderRow.ret
  | halt => exact EncodingUnderRow.halt
  | jp addr => exact EncodingUnderRow.jp addr
  | call addr => exact EncodingUnderRow.call addr
  | unknown raw => exact EncodingUnderRow.unknown raw

/-- R59, R60: a word matches a row exactly when it is the row of the variant the word decodes to. -/
theorem covers_iff_row_decodeWord {r : OpcodeRow} (hr : r ∈ opcodeRows) (w : Word) :
    r.covers w = true ↔ (decodeWord w).row = some r := by
  have h := encodingUnderRow (decodeWord w) (wf_decodeWord w) r hr
  rwa [encode_decodeWord] at h

/-- The row of a variant that has one stands in the map. -/
theorem Instr.row_mem {i : Instr} {r : OpcodeRow} (h : i.row = some r) : r ∈ opcodeRows := by
  cases i <;> simp_all [Instr.row, opcodeRows]

theorem Instr.row_eq_none_iff {i : Instr} : i.row = none ↔ ∃ raw, i = .unknown raw := by
  cases i <;> simp [Instr.row]

/-- The default row is what the five patterns leave over (R59, R61). -/
theorem inUnknownSpace_iff_uncovered (w : Word) :
    inUnknownSpace w = true ↔ ∀ r ∈ opcodeRows, r.covers w = false := by
  rw [← decodeWord_eq_unknown_self_iff]
  constructor
  · intro hd r hr
    rw [← Bool.not_eq_true, covers_iff_row_decodeWord hr, hd]
    simp [Instr.row]
  · intro hnone
    have hrow : (decodeWord w).row = none := by
      by_contra hsome
      obtain ⟨r, hr⟩ := Option.ne_none_iff_exists'.mp hsome
      have hcov := (covers_iff_row_decodeWord (Instr.row_mem hr) w).mpr hr
      rw [hnone r (Instr.row_mem hr)] at hcov
      cases hcov
    obtain ⟨raw, hd⟩ := Instr.row_eq_none_iff.mp hrow
    rw [hd, (decodeWord_eq_unknown_iff.mp hd).1]

/-- A word under the mask of the identifier nibble, as arithmetic on the word's value (R59). -/
theorem and_nibble_mask_eq_iff {k : Nat} (hk : k < 16) (w : Word) :
    w &&& 0xF000#16 = BitVec.ofNat 16 (k * 4096) ↔ w.toNat / 4096 = k := by
  rw [← BitVec.toNat_inj, EncodingUnderRow.and_nibble_toNat, BitVec.toNat_ofNat,
    Nat.mod_eq_of_lt (by omega)]
  omega

/-- The words of an identifier nibble, split at the address operand. -/
theorem eq_nibble_append_iff {k : BitVec 4} {addr : Addr12} {w : Word} :
    w = k ++ addr ↔ w.toNat / 4096 = k.toNat ∧ addr.toNat = w.toNat % 4096 := by
  have haddr := addr.isLt
  rw [← BitVec.toNat_inj, nibble_append_toNat]
  omega

/-! ## Lines of assembly (R64, R65) -/

/-- Which words an operand or-ed below an identifier nibble can be. -/
theorem or_operand_eq_iff {k n : Nat} {w : Word} (hk : k < 16) (hn : n ≤ 0xFFF) :
    BitVec.ofNat 16 (k * 4096) ||| BitVec.ofNat 16 n = w ↔ w.toNat = k * 4096 + n := by
  rw [← BitVec.toNat_inj, or_operand_toNat hk hn, eq_comm]

/-- JP assembles exactly with an operand of twelve bits, to the word of that operand (R64). -/
theorem assemble_jp_eq_ok_iff {nnn : Nat} {w : Word} :
    assemble (.jp nnn) = .ok w ↔ nnn ≤ 0xFFF ∧ w.toNat = 1 * 4096 + nnn := by
  rw [assemble]
  split
  · next hle =>
    rw [Except.ok.injEq, and_iff_right hle]
    exact or_operand_eq_iff (k := 1) (by omega) hle
  · next hgt => simp [hgt]

/-- CALL assembles exactly with an operand of twelve bits, to the word of that operand (R64). -/
theorem assemble_call_eq_ok_iff {nnn : Nat} {w : Word} :
    assemble (.call nnn) = .ok w ↔ nnn ≤ 0xFFF ∧ w.toNat = 2 * 4096 + nnn := by
  rw [assemble]
  split
  · next hle =>
    rw [Except.ok.injEq, and_iff_right hle]
    exact or_operand_eq_iff (k := 2) (by omega) hle
  · next hgt => simp [hgt]

/-- R65: a word's line of assembly assembles to the word. -/
theorem assemble_disassemble (w : Word) : assemble (disassemble w) = .ok w := by
  obtain ⟨rfl, -⟩ | ⟨rfl, -⟩ | ⟨rfl, -⟩ | ⟨hjp, hd⟩ | ⟨hcall, hd⟩ | ⟨-, hd⟩ := decodeWord_cases w
  · rfl
  · rfl
  · rfl
  · have hnnn := nnnField_toNat w
    rw [disassemble, hd]
    exact assemble_jp_eq_ok_iff.mpr (by omega)
  · have hnnn := nnnField_toNat w
    rw [disassemble, hd]
    exact assemble_call_eq_ok_iff.mpr (by omega)
  · have hword := w.isLt
    rw [disassemble, hd]
    simp [assemble]
    omega

/-- R64, R65: a mnemonic's line that assembles is the line its word disassembles to. -/
theorem disassemble_of_assemble {l : AsmLine} {w : Word} (h : assemble l = .ok w)
    (hdw : ∀ n, l ≠ .dw n) : disassemble w = l := by
  cases l with
  | cls => cases h; rfl
  | ret => cases h; rfl
  | halt => cases h; rfl
  | jp nnn =>
    obtain ⟨hle, hw⟩ := assemble_jp_eq_ok_iff.mp h
    rw [disassemble, decodeWord_of_nibble_one (by omega)]
    simp only [nnnField_toNat]
    exact congrArg AsmLine.jp (by omega)
  | call nnn =>
    obtain ⟨hle, hw⟩ := assemble_call_eq_ok_iff.mp h
    rw [disassemble, decodeWord_of_nibble_two (by omega)]
    simp only [nnnField_toNat]
    exact congrArg AsmLine.call (by omega)
  | dw n => exact absurd rfl (hdw n)

/-! ## Bytes and table words (R54, R55) -/

/-- Two bytes as a word, in the words of R55. -/
theorem wordOfBytes_eq_ofNat (hi lo : Byte) :
    wordOfBytes hi lo = BitVec.ofNat 16 (hi.toNat * 256 + lo.toNat) := by
  apply BitVec.eq_of_toNat_eq
  have hhi := hi.isLt
  have hlo := lo.isLt
  rw [wordOfBytes_toNat, BitVec.toNat_ofNat]
  omega

/-- The bytes of a full-width table row are the two bytes of its word, in memory order. -/
theorem tableWordBytes_full {n : Nat} (hn : n < 65536) :
    tableWordBytes 16 n = [hiByte (BitVec.ofNat 16 n), loByte (BitVec.ofNat 16 n)] := by
  have hmod : n % 2 ^ 16 = n := Nat.mod_eq_of_lt hn
  rw [tableWordBytes, hmod]

end Sys2Proof

namespace Sys2Proof.Machine

/-! ## The obligations -/

/-- Settles O19: `decodeWord_encode`, on words and through the two bytes of the word. -/
theorem decodeOfEncodeIsTheInstruction : Obligations.DecodeOfEncodeIsTheInstruction := by
  intro i rest hwf
  have hd := decodeWord_encode hwf
  exact ⟨hd, by rw [decode_encodeBytes_append, hd]⟩

/-- Settles O16: a word decodes to a variant exactly when it is the variant's word
(`decodeWord_eq_iff`), which is the pattern under the mask. -/
theorem decoderFollowsTheOpcodeMap : Obligations.DecoderFollowsTheOpcodeMap := by
  intro w
  have hwhole : w &&& 0xFFFF#16 = w := BitVec.and_allOnes
  have hjp := and_nibble_mask_eq_iff (k := 1) (by omega) w
  have hcall := and_nibble_mask_eq_iff (k := 2) (by omega) w
  rw [hwhole]
  refine ⟨decodeWord_eq_iff rfl, decodeWord_eq_iff rfl, decodeWord_eq_iff rfl,
    fun addr => ?_, fun addr => ?_, fun raw => ?_⟩
  · rw [hjp]
    exact (decodeWord_eq_iff rfl).trans eq_nibble_append_iff
  · rw [hcall]
    exact (decodeWord_eq_iff rfl).trans eq_nibble_append_iff
  · rw [decodeWord_eq_unknown_iff, inUnknownSpace_iff_uncovered]

/-- Settles O17: both rows are the row of the variant the word decodes to. -/
theorem opcodeRowsAreDisjointAndDecodingIsInjective :
    Obligations.OpcodeRowsAreDisjointAndDecodingIsInjective := by
  refine ⟨fun w r r' hr hr' hcov hcov' => ?_, fun w w' => @decodeWord_injective w w'⟩
  rw [covers_iff_row_decodeWord hr] at hcov
  rw [covers_iff_row_decodeWord hr'] at hcov'
  exact Option.some.inj (hcov.symm.trans hcov')

/-- Settles O18, by `decodeWord_eq_unknown_self_iff` and the ranges as arithmetic. -/
theorem unknownSpaceIsTheListedRanges : Obligations.UnknownSpaceIsTheListedRanges := by
  intro w
  rw [decodeWord_eq_unknown_self_iff, inUnknownSpace_iff]
  simp only [ne_eq, ← BitVec.toNat_inj, BitVec.toNat_ofNat, Nat.reducePow, Nat.reduceMod]

/-- Settles O20, by `wf_decodeWord` and `encode_decodeWord`. -/
theorem encodeOfDecodeIsTheWord : Obligations.EncodeOfDecodeIsTheWord :=
  fun w => ⟨wf_decodeWord w, encode_decodeWord w⟩

/-- Settles O21, by the two round trips and the operand checks of R64. -/
theorem assemblingInvertsDisassembling : Obligations.AssemblingInvertsDisassembling := by
  refine ⟨assemble_disassemble, fun l w => disassemble_of_assemble, fun nnn hbig => ?_, fun n hn => ?_⟩
  · exact ⟨if_neg (by omega), if_neg (by omega)⟩
  · exact if_pos hn

/-- Settles O15: each word is in its family, at the bounds of the operand. -/
theorem specWordsDecodeToTheirVariants : Obligations.SpecWordsDecodeToTheirVariants := by
  unfold Obligations.SpecWordsDecodeToTheirVariants
  decide

/-- Settles O22: two bytes are the word of R55, and a table row is stored as its word's two bytes. -/
theorem decodeTakesTwoBytesHighByteFirst : Obligations.DecodeTakesTwoBytesHighByteFirst := by
  refine ⟨fun hi lo rest => ?_, fun _ => rfl, rfl, fun n hn => ?_⟩
  · rw [decode, wordOfBytes_eq_ofNat]
  · simp [decodeTableWord, tableWordBytes_full hn, decode]

end Sys2Proof.Machine
end

section
/-! Memory and `load` (R35, R41, R45 to R48): canonical memories are equal when they read alike, what
a load and the placement of a word leave unchanged, and what the next fetch reads. -/

namespace Sys2Proof.Machine

/-! ## Canonical memories as functions of the address -/

/-- A memory that reads like a canonical one at the latter's first cell lists that address or one below
it, since the cell's byte differs from the unlisted one. -/
theorem Memory.not_wfFrom_of_read_eq {lo a : Nat} {b : Byte} {rest m : Memory}
    (hcell : Memory.wfFrom lo ((a, b) :: rest) = true)
    (hread : Memory.read ((a, b) :: rest) a = Memory.read m a) :
    ¬ Memory.wfFrom (a + 1) m = true := by
  intro hm
  obtain ⟨-, -, hb, -⟩ := Memory.wfFrom_cons.mp hcell
  rw [Memory.read_cons, if_pos rfl, Memory.read_below (Nat.lt_succ_self a) hm] at hread
  exact hb hread

/-- Canonical memories that read alike are equal, cell by cell from the lowest address. -/
theorem Memory.eq_of_read_eq {lo : Nat} {m m' : Memory} (hm : Memory.wfFrom lo m = true)
    (hm' : Memory.wfFrom lo m' = true)
    (hread : ∀ a, lo ≤ a → a ≤ Config.addrMax → Memory.read m a = Memory.read m' a) : m = m' := by
  induction m generalizing lo m' with
  | nil =>
    cases m' with
    | nil => rfl
    | cons cell' rest' =>
      obtain ⟨a', b'⟩ := cell'
      obtain ⟨hlo, hmax, -, -⟩ := Memory.wfFrom_cons.mp hm'
      exact absurd rfl (Memory.not_wfFrom_of_read_eq hm' (hread a' hlo hmax).symm)
  | cons cell rest ih =>
    obtain ⟨a, b⟩ := cell
    obtain ⟨hlo, hmax, hb, hrest⟩ := Memory.wfFrom_cons.mp hm
    cases m' with
    | nil => exact absurd rfl (Memory.not_wfFrom_of_read_eq hm (hread a hlo hmax))
    | cons cell' rest' =>
      obtain ⟨a', b'⟩ := cell'
      obtain ⟨hlo', hmax', hb', hrest'⟩ := Memory.wfFrom_cons.mp hm'
      have hle : a ≤ a' := by
        by_contra hlt
        exact Memory.not_wfFrom_of_read_eq hm' (hread a' hlo' hmax').symm
          (Memory.wfFrom_cons.mpr ⟨by omega, hmax, hb, hrest⟩)
      have hge : a' ≤ a := by
        by_contra hlt
        exact Memory.not_wfFrom_of_read_eq hm (hread a hlo hmax)
          (Memory.wfFrom_cons.mpr ⟨by omega, hmax', hb', hrest'⟩)
      obtain rfl : a = a' := by omega
      obtain rfl : b = b' := by simpa [Memory.read_cons] using hread a hlo hmax
      have htail : rest = rest' := ih hrest hrest' fun x hx hxmax => by
        have hx' := hread x (by omega) hxmax
        rwa [Memory.read_cons, Memory.read_cons, if_neg (by omega), if_neg (by omega)] at hx'
      rw [htail]

/-! ## What the host's load leaves -/

theorem perform_load_ok {bytes : List Byte} {s t : State} (h : load bytes s = .ok t) :
    (HostOp.load bytes).perform s = (.loaded, t) := by
  simp [HostOp.perform, h]

theorem perform_load_error {bytes : List Byte} {s : State} {k : Fault}
    (h : load bytes s = .error k) : (HostOp.load bytes).perform s = (.loadFailed k, s) := by
  simp [HostOp.perform, h]

/-- The program region starts above the reserved one, so a load keeps the invariant (R45, R48). -/
theorem inv_load {s t : State} {bytes : List Byte} (hinv : Inv s) (h : load bytes s = .ok t) :
    Inv t := by
  obtain ⟨-, hframe, hwf, -, hkept⟩ := load_ok h hinv.memWf
  refine ⟨hwf, fun a ha => ?_, ?_⟩
  · have ha' : a < 0x200 := ha
    rw [hkept a (.inl ha'), hinv.reserved a ha]
  · obtain ⟨-, hslots⟩ := hinv.bounded
    rw [hframe]
    exact ⟨by simp, hslots⟩

/-- Two bytes of memory are fetched as one word, high byte first (R55), in the words of 95 S9. -/
theorem fetch_bytes {s : State} {p : Nat} {hi lo : Byte} (hpc : s.pc.toNat = p) (hp : p ≤ 0xFFE)
    (hhi : Memory.read s.mem p = hi) (hlo : Memory.read s.mem (p + 1) = lo) :
    fetch s = .ok (wordOfBytes hi lo) := by
  subst hpc hhi hlo
  exact fetch_in (by omega)

/-! ## The placement of a table word (log entry 8) -/

/-- A placed word fits below the top of memory wherever PC stands. -/
theorem placementAddress_le (s : State) : (placementAddress s).toNat ≤ 0xFFE := by
  unfold placementAddress
  split
  · decide
  · next hpc =>
    simp only [readPc_eq, Config.addrMax] at hpc ⊢
    omega

theorem placementAddress_of_fetchable {s : State} (h : s.pc.toNat + 1 ≤ 0xFFF) :
    placementAddress s = s.pc :=
  if_neg (by simp only [readPc_eq, Config.addrMax]; omega)

/-- Everything the placement of two bytes does, on canonical memory: they stand at the placement
address, which is PC now, and no field but memory and PC changes. -/
theorem placeAtFetch_pair {s : State} (hi lo : Byte) (hm : Memory.wf s.mem = true) :
    ∃ m, placeAtFetch [hi, lo] s = { s with mem := m, pc := placementAddress s } ∧
      Memory.wf m = true ∧ Memory.read m (placementAddress s).toNat = hi ∧
      Memory.read m ((placementAddress s).toNat + 1) = lo := by
  have haddr := placementAddress_le s
  obtain ⟨m, hok, hwf, hread⟩ := memWriteBytes_ok (bytes := [hi, lo])
    (addr := (placementAddress s).toNat) hm
    (by simp only [Config.addrMax, List.length_cons, List.length_nil]; omega)
  refine ⟨m, ?_, hwf, ?_, ?_⟩
  · simp only [placeAtFetch, hok]
    rfl
  · simp [hread]
  · simp [hread]

/-! ## The obligations -/

/-- Settles O9, by the laws of the write on either side of ADDR_MAX. -/
theorem memWriteStoresOneByteAndNothingElse : Obligations.MemWriteStoresOneByteAndNothingElse := by
  refine fun m addr v hm => ⟨memWrite_of_gt, fun hin => ?_⟩
  obtain ⟨-, hwf, hread⟩ := memWrite_ok (memWrite_of_le (v := v) hin) hm
  refine ⟨_, memWrite_of_le hin, hwf, ?_, fun a ha => ?_⟩
  · rw [hread, if_pos rfl]
  · rw [hread, if_neg ha.symm]

/-- Settles O10, by `Memory.eq_of_read_eq` from address 0. -/
theorem canonicalMemoriesThatReadAlikeAreEqual :
    Obligations.CanonicalMemoriesThatReadAlikeAreEqual :=
  fun _ _ hm hm' hread => Memory.eq_of_read_eq hm hm' fun a _ => hread a

/-- Settles O12, by what a load that succeeds can do (`load_ok`) and the fault of one too large. -/
theorem loadChangesOnlyProgramBytesAndPc : Obligations.LoadChangesOnlyProgramBytesAndPc := by
  refine fun s bytes hm => ⟨fun t h => ?_, fun hbig => ?_⟩
  · obtain ⟨-, hframe, -, -, hkept⟩ := load_ok h hm
    have hpc : t.pc = 0x200#16 := by rw [hframe]
    exact ⟨by rw [hpc]; exact hframe, hkept⟩
  · exact perform_load_error (load_too_large hbig)

/-- Settles O13: the four bytes stand at 0x200 to 0x203, and each fetch puts two of them together. -/
theorem loadedBytesAreFetchedAsBigEndianWords :
    Obligations.LoadedBytesAreFetchedAsBigEndianWords := by
  intro s b0 b1 b2 b3 hm
  obtain ⟨t, hok⟩ := load_fits (bytes := [b0, b1, b2, b3]) (by simp) hm
  obtain ⟨-, hframe, -, hbytes, -⟩ := load_ok hok hm
  have hpc : t.pc = 0x200#16 := by rw [hframe]
  have hfirst : fetch t = .ok (wordOfBytes b0 b1) :=
    fetch_bytes (p := 0x200) (by simp [hpc]) (by omega) (hbytes 0 (by simp)) (hbytes 1 (by simp))
  have hsecond : fetch (writePc t 0x202#16) = .ok (wordOfBytes b2 b3) :=
    fetch_bytes (p := 0x202) rfl (by omega) (hbytes 2 (by simp)) (hbytes 3 (by simp))
  exact ⟨t, hok, ⟨_, hfirst, wordOfBytes_toNat b0 b1⟩, ⟨_, hsecond, wordOfBytes_toNat b2 b3⟩⟩

/-- Settles O31, by `inv_load`. -/
theorem loadKeepsInvariant : Obligations.LoadKeepsInvariant :=
  fun _ _ _ => inv_load

/-- Settles O46: the table row's two bytes stand at the placement address (`placeAtFetch_pair`). -/
theorem placedTableWordIsFetchedNext : Obligations.PlacedTableWordIsFetchedNext := by
  intro s w hm hw
  have hbytes := tableWordBytes_full hw
  obtain ⟨m, hplace, hwf, hhi, hlo⟩ :=
    placeAtFetch_pair (hiByte (BitVec.ofNat 16 w)) (loByte (BitVec.ofNat 16 w)) hm
  rw [State.withFetchWord, hbytes, hplace]
  refine ⟨?_, hwf, rfl, placementAddress_of_fetchable⟩
  rw [fetch_bytes rfl (placementAddress_le s) hhi hlo, wordOfBytes_bytes]

end Sys2Proof.Machine
end

section
/-! The instructions and the cycle (R66 to R84): one rule per instruction and way to end, for `exec`
and for a cycle on a fetched word; when each fault is raised. -/

namespace Sys2Proof.Machine

/-! ## One rule per instruction (R78 to R84) -/

theorem exec_cls (s : State) :
    exec .cls s = .next { advance (emitDisplayClear s) with lastStatus := .continued } := rfl

theorem exec_jp (addr : Addr12) (s : State) :
    exec (.jp addr) s = .next { writePc s (addressOperand addr) with lastStatus := .continued } := rfl

theorem exec_halt (s : State) : exec .halt s = .next { s with lastStatus := .halted } := rfl

theorem exec_unknown (raw : Word) (s : State) :
    exec (.unknown raw) s = .fault (.unimplementedOpcode raw) := rfl

/-- RET with a top slot: it resumes past the CALL whose address the slot holds (R79). -/
theorem exec_ret {s : State} {top : Fin 16} (htop : top.val + 1 = s.sp.val) :
    exec .ret s = .next { s with
      pc := s.stack[top.val] + 2#16, sp := top.castSucc, lastStatus := .continued } := by
  obtain ⟨a, u, hpop⟩ := pop_room (s := s) (by omega)
  obtain ⟨-, hsp, ha, hframe⟩ := pop_ok hpop
  have hspEq : u.sp = top.castSucc := Fin.ext (by rw [Fin.val_castSucc]; omega)
  simp only [exec, execRet, handleRet, hpop, returnTarget, Config.retSkipsCall, if_true, finish_explicit,
    ha top htop]
  rw [hframe, hspEq]
  rfl

theorem exec_ret_empty {s : State} (h : s.sp.val = 0) : exec .ret s = .fault .stackUnderflow := by
  simp [exec, execRet, handleRet, pop_empty h]

/-- CALL with a free slot: it stores its own address there and jumps (R81). -/
theorem exec_call {s : State} {free : Fin 16} (addr : Addr12) (hfree : free.val = s.sp.val) :
    exec (.call addr) s = .next { s with
      pc := addressOperand addr, stack := s.stack.set free.val s.pc, sp := free.succ,
      lastStatus := .continued } := by
  have hpush : push s.pc s =
      .ok { s with stack := s.stack.set free.val s.pc, sp := free.succ } := by
    rw [push, dif_neg (by omega)]
    simp [hfree, Fin.succ]
  simp only [exec, execCall, handleCall, readPc_eq, hpush, finish_explicit]
  rfl

theorem exec_call_full {s : State} (addr : Addr12) (h : s.sp.val = 16) :
    exec (.call addr) s = .fault .stackOverflow := by
  simp [exec, execCall, handleCall, push_full h]

/-- Either the stack is empty or it has a top slot. -/
theorem sp_empty_or_top (s : State) : s.sp.val = 0 ∨ ∃ top : Fin 16, top.val + 1 = s.sp.val := by
  obtain hzero | ⟨top, htop⟩ := Fin.eq_zero_or_eq_succ s.sp
  · exact .inl (by rw [hzero]; rfl)
  · exact .inr ⟨top, by rw [htop, Fin.val_succ]⟩

/-- Either the stack is full or it has a next free slot. -/
theorem sp_full_or_free (s : State) : s.sp.val = 16 ∨ ∃ free : Fin 16, free.val = s.sp.val := by
  by_cases hfull : s.sp.val = 16
  · exact .inl hfull
  · exact .inr ⟨⟨s.sp.val, by omega⟩, rfl⟩

/-- When an instruction faults, and with which fault (R79, R81, R84). -/
theorem exec_fault_iff {i : Instr} {s : State} {k : Fault} :
    exec i s = .fault k ↔
      (i = .ret ∧ s.sp.val = 0 ∧ k = .stackUnderflow) ∨
        ((∃ addr, i = .call addr) ∧ s.sp.val = 16 ∧ k = .stackOverflow) ∨
        ∃ raw, i = .unknown raw ∧ k = .unimplementedOpcode raw := by
  cases i with
  | cls => simp [exec_cls]
  | ret =>
    obtain hempty | ⟨top, htop⟩ := sp_empty_or_top s
    · simp [exec_ret_empty hempty, hempty, eq_comm]
    · simp [exec_ret htop, ← htop]
  | halt => simp [exec_halt]
  | jp addr => simp [exec_jp]
  | call addr =>
    obtain hfull | ⟨free, hfree⟩ := sp_full_or_free s
    · simp [exec_call_full addr hfull, hfull, eq_comm]
    · simp [exec_call addr hfree, ← hfree, free.isLt.ne]
  | unknown raw => simp [exec_unknown, eq_comm]

theorem exec_ne_refused (i : Instr) (s : State) (r : Refusal) : exec i s ≠ .refused r := by
  cases i with
  | cls => exact finish_ne_refused (handleCls s) r
  | ret => exact finish_ne_refused (handleRet Config.retSkipsCall s) r
  | halt => exact finish_ne_refused (handleHalt s) r
  | jp addr => exact finish_ne_refused (handleJp addr s) r
  | call addr => exact finish_ne_refused (handleCall addr s) r
  | unknown raw => exact finish_ne_refused (handleUnknown raw s) r

/-! ## A cycle on a fetched word (R66) -/

/-- A cycle that completes, as its instruction and the commit (R66). -/
theorem step_next_exec {s t : State} (h : step s = .next t) :
    ∃ w u, fetch s = .ok w ∧ exec (decodeWord w) s = .next u ∧ t = { u with lastWord := w } := by
  cases hf : fetch s with
  | error k => rw [step_of_fetch_error hf] at h; cases h
  | ok w =>
    rw [step_of_fetch hf] at h
    cases hx : exec (decodeWord w) s with
    | next u => rw [hx] at h; cases h; exact ⟨w, u, rfl, hx, rfl⟩
    | fault k => rw [hx] at h; cases h
    | refused r => rw [hx] at h; cases h

theorem step_cls {s : State} (hf : fetch s = .ok 0x00E0#16) :
    step s = .next { s with
      pc := s.pc + 2#16, display := s.display ++ [.clear], lastWord := 0x00E0#16,
      lastStatus := .continued } := by
  rw [step_of_fetch hf]
  rfl

theorem step_ret {s : State} {top : Fin 16} (hf : fetch s = .ok 0x00EE#16)
    (htop : top.val + 1 = s.sp.val) :
    step s = .next { s with
      pc := s.stack[top.val] + 2#16, sp := top.castSucc, lastWord := 0x00EE#16,
      lastStatus := .continued } := by
  rw [step_of_fetch hf, show decodeWord 0x00EE#16 = .ret from rfl, exec_ret htop, commit_next]

theorem step_halt {s : State} (hf : fetch s = .ok 0x00FD#16) :
    step s = .next { s with lastWord := 0x00FD#16, lastStatus := .halted } := by
  rw [step_of_fetch hf]
  rfl

theorem step_jp {s : State} {w : Word} (hf : fetch s = .ok w) (hw : w.toNat / 4096 = 1) :
    step s = .next { s with
      pc := addressOperand (nnnField w), lastWord := w, lastStatus := .continued } := by
  rw [step_of_fetch hf, decodeWord_of_nibble_one hw, exec_jp, commit_next]
  rfl

theorem step_call {s : State} {w : Word} {free : Fin 16} (hf : fetch s = .ok w)
    (hw : w.toNat / 4096 = 2) (hfree : free.val = s.sp.val) :
    step s = .next { s with
      pc := addressOperand (nnnField w), stack := s.stack.set free.val s.pc, sp := free.succ,
      lastWord := w, lastStatus := .continued } := by
  rw [step_of_fetch hf, decodeWord_of_nibble_two hw, exec_call _ hfree, commit_next]

/-- Where a JP or CALL of the word goes: the word's low twelve bits (R57). -/
theorem addressOperand_nnnField_toNat (w : Word) :
    (addressOperand (nnnField w)).toNat = w.toNat % 4096 := by
  rw [addressOperand_toNat, nnnField_toNat]

/-- PC + 2 does not wrap below the fetch bound. -/
theorem add_two_toNat {x : Word} (hx : x.toNat ≤ 0xFFE) : (x + 2#16).toNat = x.toNat + 2 := by
  rw [BitVec.toNat_add, BitVec.toNat_ofNat]
  omega

/-! ## When a cycle faults, halts or completes (R72, R73) -/

theorem commit_eq_fault_iff {w : Word} {o : Host.Outcome State Fault Refusal} {k : Fault} :
    commit w o = .fault k ↔ o = .fault k := by
  cases o <;> simp

theorem exists_decodeWord_eq_call_iff {w : Word} :
    (∃ addr, decodeWord w = .call addr) ↔ w.toNat / 4096 = 2 := by
  refine ⟨fun ⟨addr, hd⟩ => ?_, fun hw => ⟨_, decodeWord_of_nibble_two hw⟩⟩
  exact (eq_nibble_append_iff.mp ((decodeWord_eq_iff rfl).mp hd)).1

/-- Every fault of a cycle under its cause, in the order of R88: the fetch, then the instruction. -/
theorem step_fault_iff {s : State} {k : Fault} :
    step s = .fault k ↔
      (0xFFF ≤ s.pc.toNat ∧ k = .memoryOutOfBounds) ∨
        ∃ w, fetch s = .ok w ∧
          ((w = 0x00EE#16 ∧ s.sp.val = 0 ∧ k = .stackUnderflow) ∨
            (w.toNat / 4096 = 2 ∧ s.sp.val = 16 ∧ k = .stackOverflow) ∨
            (inUnknownSpace w = true ∧ k = .unimplementedOpcode w)) := by
  by_cases hpc : 0xFFF ≤ s.pc.toNat
  · simp only [step_of_fetch_error (fetch_out hpc), fetch_out hpc, hpc, reduceCtorEq, false_and,
      exists_const, or_false, true_and, Host.Outcome.fault.injEq]
    exact eq_comm
  · obtain ⟨w, hf⟩ : ∃ w, fetch s = .ok w := ⟨_, fetch_in (by omega)⟩
    have hret : decodeWord w = .ret ↔ w = 0x00EE#16 := decodeWord_eq_iff rfl
    have hword : ∀ w', (.ok w : Except Fault Word) = .ok w' ↔ w' = w := fun w' => by
      rw [Except.ok.injEq, eq_comm]
    rw [step_of_fetch hf, commit_eq_fault_iff, exec_fault_iff, hret, exists_decodeWord_eq_call_iff]
    simp only [hf, hpc, hword, decodeWord_eq_unknown_iff, and_assoc, exists_eq_left, false_and, false_or]

theorem step_ne_refused (s : State) (r : Refusal) : step s ≠ .refused r := by
  intro h
  cases hf : fetch s with
  | error k => rw [step_of_fetch_error hf] at h; cases h
  | ok w =>
    rw [step_of_fetch hf] at h
    cases hx : exec (decodeWord w) s with
    | next u => rw [hx] at h; cases h
    | fault k => rw [hx] at h; cases h
    | refused x => exact exec_ne_refused _ _ _ hx

/-- A cycle completes or faults. -/
theorem step_next_or_fault (s : State) : (∃ t, step s = .next t) ∨ ∃ k, step s = .fault k := by
  cases h : step s with
  | next t => exact .inl ⟨t, rfl⟩
  | fault k => exact .inr ⟨k, rfl⟩
  | refused r => exact absurd h (step_ne_refused s r)

/-- A completed cycle records `Halted` exactly on the HALT word (R72, R83). -/
theorem lastStatus_halted_iff {s t : State} (h : step s = .next t) :
    t.lastStatus = .halted ↔ fetch s = .ok 0x00FD#16 := by
  constructor
  · intro hstatus
    obtain ⟨w, hf, ⟨-, rfl⟩ | ⟨a, u, -, -, rfl⟩ | ⟨hd, -⟩ | ⟨addr, -, rfl⟩ | ⟨addr, u, -, -, rfl⟩⟩ :=
      step_next h
    · cases hstatus
    · cases hstatus
    · rw [hf, (decodeWord_eq_iff rfl).mp hd]
      rfl
    · cases hstatus
    · cases hstatus
  · intro hf
    rw [step_halt hf] at h
    cases h
    rfl

/-- Nothing is latched: the cycle after `Halted` fetches HALT again and changes nothing (R77). -/
theorem halted_repeats {s t : State} (h : step s = .next t) (hhalt : fetch s = .ok 0x00FD#16) :
    fetch t = .ok 0x00FD#16 ∧ step t = .next t := by
  rw [step_halt hhalt] at h
  cases h
  exact ⟨hhalt, step_halt hhalt⟩

theorem cycle_of_next {s t : State} (h : step s = .next t) :
    cycle s = (some (.completed t.lastStatus), t) := by
  simp [cycle, h, statusOf, stateAfter]

theorem cycle_of_fault {s : State} {k : Fault} (h : step s = .fault k) :
    cycle s = (some (.fault k), s) := by
  simp [cycle, h, statusOf, stateAfter]

theorem cycle_halted_iff {s : State} :
    (cycle s).1 = some (.completed .halted) ↔ fetch s = .ok 0x00FD#16 := by
  obtain ⟨t, h⟩ | ⟨k, h⟩ := step_next_or_fault s
  · rw [cycle_of_next h, ← lastStatus_halted_iff h]
    simp
  · refine ⟨fun hc => ?_, fun hf => ?_⟩
    · rw [cycle_of_fault h] at hc
      cases hc
    · rw [step_halt hf] at h
      cases h

theorem cycle_fault_iff {s : State} {k : Fault} :
    (cycle s).1 = some (.fault k) ↔ step s = .fault k := by
  obtain ⟨t, h⟩ | ⟨k', h⟩ := step_next_or_fault s
  · simp [cycle_of_next h, h]
  · simp [cycle_of_fault h, h]

/-! ## The obligations -/

/-- Settles O26: each clause is `step_fault_iff` at its fault. -/
theorem cycleFaultsExactlyWhenTheSpecSays : Obligations.CycleFaultsExactlyWhenTheSpecSays := by
  refine fun s => ⟨?_, ?_, ?_, fun raw => ?_, ?_, step_ne_refused s⟩ <;> simp [step_fault_iff]

/-- Settles O27: a cycle completes with one of the two recorded statuses, or faults and leaves the
state; the HALT word decides between the two (`cycle_halted_iff`). -/
theorem cycleReturnsOneOfThreeStatuses : Obligations.CycleReturnsOneOfThreeStatuses := by
  refine fun s => ⟨?_, cycle_halted_iff⟩
  obtain ⟨t, h⟩ | ⟨k, h⟩ := step_next_or_fault s
  · rw [cycle_of_next h]
    cases hstatus : t.lastStatus with
    | continued => exact .inl rfl
    | halted => exact .inr (.inl rfl)
  · rw [cycle_of_fault h]
    refine .inr (.inr ⟨k, rfl, ?_, rfl⟩)
    rintro rfl
    simp [step_fault_iff] at h

/-- Settles O28: HALT keeps PC and memory, so it is fetched again (`halted_repeats`); a fault leaves
the state it was raised in. -/
theorem terminalCyclesRepeat : Obligations.TerminalCyclesRepeat := by
  refine fun s => ⟨fun hc => ?_, fun k hc => ?_⟩
  · have hhalt := cycle_halted_iff.mp hc
    have hstep := step_halt hhalt
    rw [cycle_of_next hstep, cycle_of_next (halted_repeats hstep hhalt).2]
  · have hstep := cycle_fault_iff.mp hc
    rw [cycle_of_fault hstep, cycle_of_fault hstep]

/-- Settles O24, by the fetch's bound test (`fetch_out`). -/
theorem fetchAtTopOfMemoryFaults : Obligations.FetchAtTopOfMemoryFaults := by
  intro s hpc
  have hstep := step_of_fetch_error (fetch_out hpc)
  exact ⟨hstep, cycle_of_fault hstep⟩

/-- Settles O25: the fetched word is the two bytes at PC, and the decoded instruction keeps it
(`encode_decodeWord`). -/
theorem stepRunsTheDecodedInstruction : Obligations.StepRunsTheDecodedInstruction := by
  intro s i hpc hdec
  obtain ⟨rfl, -⟩ := Prod.mk.inj (Except.ok.inj hdec)
  rw [step_of_fetch (fetch_in hpc), encode_decodeWord]
  refine ⟨fun t hx => ?_, fun k hx => ?_, fun r hx => ?_⟩
  · rw [hx, commit_next]
  · rw [hx, commit_fault]
  · rw [hx, commit_refused]

/-- Settles O41: the handler raises the fault in every state, and a word of the Unknown space decodes
to itself. -/
theorem unknownWordFaultsWithTheWholeWord : Obligations.UnknownWordFaultsWithTheWholeWord :=
  fun s raw => ⟨exec_unknown raw s, fun hf hu =>
    cycle_of_fault (step_fault_iff.mpr (.inr ⟨raw, hf, .inr (.inr ⟨hu, rfl⟩)⟩))⟩

/-- Settles O40, by HALT's rules for `exec` and for the cycle. -/
theorem haltReturnsHaltedAndKeepsPc : Obligations.HaltReturnsHaltedAndKeepsPc :=
  fun s => ⟨exec_halt s, fun hf => cycle_of_next (step_halt hf)⟩

/-- Settles O34, by CLS's rules; a fetched CLS has PC at most 0xFFE, so PC + 2 does not wrap. -/
theorem clsEmitsOneClearAndAdvances : Obligations.ClsEmitsOneClearAndAdvances := by
  refine fun s => ⟨rfl, fun hf => ⟨_, step_cls hf, rfl, ?_, fun htop => ?_⟩⟩
  · exact add_two_toNat (fetch_ok hf).1
  · have hpc : s.pc + 2#16 = 0x1000#16 := by rw [htop]; rfl
    exact ⟨hpc, step_of_fetch_error (fetch_out (by simp [hpc]))⟩

/-- Settles O36, by RET's rules on a stack with a top slot and on the empty one. -/
theorem retPopsAndResumesAfterTheCall : Obligations.RetPopsAndResumesAfterTheCall := by
  refine fun s => ⟨fun top htop => ?_, fun hempty => ?_⟩
  · refine ⟨_, exec_ret htop, rfl, rfl, fun hf => ⟨step_ret hf htop, fun hslot => ?_⟩⟩
    have hpc : s.stack[top.val] + 2#16 = 0x1000#16 := by rw [hslot]; rfl
    exact ⟨hpc, step_of_fetch_error (fetch_out (by simp [hpc]))⟩
  · exact ⟨exec_ret_empty hempty,
      fun hf => step_fault_iff.mpr (.inr ⟨_, hf, .inl ⟨rfl, hempty, rfl⟩⟩)⟩

/-- Settles O39: the CALL stores its address in the free slot, and the RET takes it from there. -/
theorem returnAfterCallResumesPastTheCall : Obligations.ReturnAfterCallResumesPastTheCall := by
  intro s t w hf hw hstep hret
  obtain hfull | ⟨free, hfree⟩ := sp_full_or_free s
  · rw [step_fault_iff.mpr (.inr ⟨w, hf, .inr (.inl ⟨hw, hfull, rfl⟩)⟩)] at hstep
    cases hstep
  · rw [step_call hf hw hfree] at hstep
    cases hstep
    refine ⟨_, step_ret (top := free) hret rfl, ?_, Fin.ext hfree, fun k hk => ?_⟩
    · simp only [Vector.getElem_set_self]
      exact add_two_toNat (fetch_ok hf).1
    · exact Vector.getElem_set_ne free.isLt (by omega) (by omega)

/-- Settles O42, by the rules of CLS, JP and HALT. -/
theorem nonStackInstructionsFrame : Obligations.NonStackInstructionsFrame := by
  rintro i s t (rfl | rfl | ⟨addr, rfl⟩) hx
  · rw [exec_cls] at hx
    cases hx
    simp
  · rw [exec_halt] at hx
    cases hx
    simp
  · rw [exec_jp] at hx
    cases hx
    simp

/-- Settles O43, by the rules of RET and CALL where they complete. -/
theorem stackInstructionsFrame : Obligations.StackInstructionsFrame := by
  rintro i s t (rfl | ⟨addr, rfl⟩) hx
  · obtain hempty | ⟨top, htop⟩ := sp_empty_or_top s
    · rw [exec_ret_empty hempty] at hx
      cases hx
    · rw [exec_ret htop] at hx
      cases hx
      simp [htop]
  · obtain hfull | ⟨free, hfree⟩ := sp_full_or_free s
    · rw [exec_call_full addr hfull] at hx
      cases hx
    · rw [exec_call addr hfree] at hx
      cases hx
      refine ⟨fun _ => rfl, fun _ => rfl, rfl, rfl, rfl, nofun, fun _ => ⟨?_, fun k hk => ?_⟩⟩
      · rw [Fin.val_succ, hfree]
      · exact Vector.getElem_set_ne free.isLt k.isLt (by omega)

end Sys2Proof.Machine
end

section
/-! What every cycle keeps (R15, R17, R21, R36, R40, R95): memory and the data registers, the bounds on
PC and on the occupied slots, and the display trace but for CLS. -/

namespace Sys2Proof.Machine

/-! ## The frame of every cycle -/

/-- No instruction stores to memory or to a data register, and a completed cycle commits the word it
fetched (R15, R17, R36, R74). -/
theorem step_frame {s t : State} (h : step s = .next t) :
    t.mem = s.mem ∧ t.v = s.v ∧ t.i = s.i ∧ fetch s = .ok t.lastWord := by
  obtain ⟨w, hf, ⟨-, rfl⟩ | ⟨a, u, -, hpop, rfl⟩ | ⟨-, rfl⟩ | ⟨addr, -, rfl⟩ | ⟨addr, u, -, hpush, rfl⟩⟩ :=
    step_next h
  · exact ⟨rfl, rfl, rfl, hf⟩
  · obtain ⟨-, -, -, hframe⟩ := pop_ok hpop
    rw [hframe]
    exact ⟨rfl, rfl, rfl, hf⟩
  · exact ⟨rfl, rfl, rfl, hf⟩
  · exact ⟨rfl, rfl, rfl, hf⟩
  · obtain ⟨-, -, -, hframe⟩ := push_ok hpush
    rw [hframe]
    exact ⟨rfl, rfl, rfl, hf⟩

/-- Every word but CLS sends no request (R95). -/
theorem step_display_of_ne_cls {s t : State} (h : step s = .next t) (hne : fetch s ≠ .ok 0x00E0#16) :
    t.display = s.display := by
  obtain ⟨w, hf, ⟨hd, -⟩ | ⟨a, u, -, hpop, rfl⟩ | ⟨-, rfl⟩ | ⟨addr, -, rfl⟩ | ⟨addr, u, -, hpush, rfl⟩⟩ :=
    step_next h
  · rw [hf, (decodeWord_eq_iff rfl).mp hd] at hne
    exact absurd rfl hne
  · obtain ⟨-, -, -, hframe⟩ := pop_ok hpop
    rw [hframe]
    rfl
  · rfl
  · rfl
  · obtain ⟨-, -, -, hframe⟩ := push_ok hpush
    rw [hframe]
    rfl

/-- A trace that ends in a clear leaves a blank surface, whatever came before it (R95). -/
theorem surfaceAfter_append_clear (px : Surface) (trace : List DisplayRequest) :
    surfaceAfter px (trace ++ [.clear]) =
      Vector.replicate Config.displayH (Vector.replicate Config.displayW false) := by
  simp [surfaceAfter, DisplayRequest.apply]

/-! ## The invariant -/

/-- R21: a fetched instruction has PC at most 0xFFE, so PC + 2 and the address a CALL stores stay in
bounds, and RET resumes two past an address a CALL stored. -/
theorem pcBounded_step {s t : State} (hb : PcBounded s) (h : step s = .next t) : PcBounded t := by
  obtain ⟨hpc, hslots⟩ := hb
  obtain ⟨w, hf, hcase⟩ := step_next h
  have hin := (fetch_ok hf).1
  obtain ⟨-, rfl⟩ | ⟨a, u, -, hpop, rfl⟩ | ⟨-, rfl⟩ | ⟨addr, -, rfl⟩ | ⟨addr, u, -, hpush, rfl⟩ := hcase
  · have hadv := add_two_toNat hin
    exact ⟨by simp only [advance_pc, emitDisplayClear_pc]; omega, hslots⟩
  · obtain ⟨hpos, hsp, htop, hframe⟩ := pop_ok hpop
    obtain hempty | ⟨top, hspTop⟩ := sp_empty_or_top s
    · omega
    have ha : a.toNat ≤ 0xFFE := by
      rw [htop top hspTop]
      exact hslots top (by omega)
    have hresume := add_two_toNat ha
    refine ⟨by simp only [writePc_pc]; omega, fun k hk => ?_⟩
    rw [hframe]
    exact hslots k (by simp only [writePc_sp] at hk; omega)
  · exact ⟨hpc, hslots⟩
  · have haddr := addressOperand_toNat addr
    exact ⟨by simp only [writePc_pc]; omega, hslots⟩
  · obtain ⟨-, hsp, hslot, -⟩ := push_ok hpush
    have haddr := addressOperand_toNat addr
    refine ⟨by simp only [writePc_pc]; omega, fun k hk => ?_⟩
    simp only [writePc_sp, writePc_stack] at hk ⊢
    rw [hslot]
    split
    · exact hin
    · exact hslots k (by omega)

/-- R21, R23, R40: memory is as before the cycle, and the bounds hold after it. -/
theorem inv_step {s t : State} (hinv : Inv s) (h : step s = .next t) : Inv t := by
  obtain ⟨hmem, -, -, -⟩ := step_frame h
  refine ⟨?_, fun a ha => ?_, pcBounded_step hinv.bounded h⟩
  · rw [hmem]
    exact hinv.memWf
  · rw [hmem]
    exact hinv.reserved a ha

theorem inv_construct : Inv construct :=
  ⟨rfl, fun _ _ => rfl, by decide, by decide⟩

/-! ## The obligations -/

/-- Settles O30, by `inv_step`. -/
theorem stepKeepsInvariant : Obligations.StepKeepsInvariant :=
  fun _ _ => inv_step

/-- Settles O29, by `step_frame`. -/
theorem noCycleWritesMemoryOrDataRegisters : Obligations.NoCycleWritesMemoryOrDataRegisters := by
  intro s t h
  obtain ⟨hmem, hv, hi, hf⟩ := step_frame h
  exact ⟨fun a => by rw [hmem], hmem, fun idx => by rw [readV_eq, readV_eq, hv], hi, hf⟩

/-- Settles O35: CLS appends a clear, which blanks the surface; every other word sends nothing. -/
theorem displayRequestsComeFromClsAlone : Obligations.DisplayRequestsComeFromClsAlone := by
  refine fun s t h => ⟨fun hf => ?_, step_display_of_ne_cls h⟩
  rw [step_cls hf] at h
  cases h
  exact ⟨rfl, fun px y x => by simp [surfaceAfter_append_clear]⟩

end Sys2Proof.Machine
end

section
/-! Noninterference (R76): V, I, the free slots, last_word, the display trace and the recorded status
decide nothing. -/

namespace Sys2Proof.Machine

/-- Two states agree on what a cycle may read: memory, PC, SP and the occupied slots. -/
structure Agree (s s' : State) : Prop where
  mem : s.mem = s'.mem
  pc : s.pc = s'.pc
  sp : s.sp = s'.sp
  slots : ∀ k : Fin 16, k.val < s.sp.val → s.stack[k.val] = s'.stack[k.val]

/-- From `s` to `t` as from `s'` to `t'`: the ends agree, with the same recorded status, and the same
requests were sent. -/
structure SameEffect (s s' t t' : State) : Prop where
  agree : Agree t t'
  status : t.lastStatus = t'.lastStatus
  requests : ∃ d, t.display = s.display ++ d ∧ t'.display = s'.display ++ d

theorem Agree.fetch_eq {s s' : State} (h : Agree s s') : fetch s = fetch s' :=
  fetch_congr h.mem h.pc

/-- A fault's cause is a matter of the fetched word and SP (`step_fault_iff`). -/
theorem Agree.step_fault_iff {s s' : State} (h : Agree s s') (k : Fault) :
    step s = .fault k ↔ step s' = .fault k := by
  rw [Machine.step_fault_iff, Machine.step_fault_iff, h.fetch_eq, h.pc, h.sp]

/-- An instruction that completes in one of two states that agree does the same in the other: RET
reads the top occupied slot alone, and CALL overwrites the slot it occupies. -/
theorem Agree.exec_next {s s' t : State} {i : Instr} (h : Agree s s') (hx : exec i s = .next t) :
    ∃ t', exec i s' = .next t' ∧ SameEffect s s' t t' := by
  have hnone : ∃ d, s.display = s.display ++ d ∧ s'.display = s'.display ++ d := ⟨[], by simp⟩
  cases i with
  | cls =>
    cases hx
    exact ⟨_, exec_cls s', ⟨h.mem, congrArg (· + 2#16) h.pc, h.sp, h.slots⟩, rfl, [.clear], rfl, rfl⟩
  | ret =>
    obtain hempty | ⟨top, htop⟩ := sp_empty_or_top s
    · rw [exec_ret_empty hempty] at hx
      cases hx
    · rw [exec_ret htop] at hx
      cases hx
      have htop' : top.val + 1 = s'.sp.val := by rw [← h.sp, htop]
      have hslot := h.slots top (by omega)
      refine ⟨_, exec_ret htop', ⟨h.mem, congrArg (· + 2#16) hslot, rfl, fun k hk => ?_⟩, rfl, hnone⟩
      rw [Fin.val_castSucc] at hk
      exact h.slots k (by omega)
  | halt =>
    cases hx
    exact ⟨_, exec_halt s', ⟨h.mem, h.pc, h.sp, h.slots⟩, rfl, hnone⟩
  | jp addr =>
    cases hx
    exact ⟨_, exec_jp addr s', ⟨h.mem, rfl, h.sp, h.slots⟩, rfl, hnone⟩
  | call addr =>
    obtain hfull | ⟨free, hfree⟩ := sp_full_or_free s
    · rw [exec_call_full addr hfull] at hx
      cases hx
    · rw [exec_call addr hfree] at hx
      cases hx
      have hfree' : free.val = s'.sp.val := by rw [← h.sp, hfree]
      refine ⟨_, exec_call addr hfree', ⟨h.mem, rfl, rfl, fun k hk => ?_⟩, rfl, hnone⟩
      rw [Fin.val_succ] at hk
      simp only [Vector.getElem_set, h.pc]
      split
      · rfl
      · exact h.slots k (by omega)
  | unknown raw => cases hx

/-- Settles O33: both cycles fetch one word, and its instruction does the same in both states
(`Agree.exec_next`). -/
theorem cycleReadsOnlyMemoryPcAndOccupiedSlots :
    Obligations.CycleReadsOnlyMemoryPcAndOccupiedSlots := by
  intro s s' hmem hpc hsp hslots
  have hagree : Agree s s' := ⟨hmem, hpc, hsp, hslots⟩
  refine ⟨hagree.step_fault_iff, fun t hstep => ?_⟩
  obtain ⟨w, u, hf, hx, rfl⟩ := step_next_exec hstep
  obtain ⟨u', hx', ⟨hmem', hpc', hsp', hslots'⟩, hstatus, hrequests⟩ := hagree.exec_next hx
  refine ⟨{ u' with lastWord := w }, ?_, hmem', hpc', hsp', hslots', rfl, hstatus, hrequests⟩
  rw [step_of_fetch (hagree.fetch_eq ▸ hf), hx', commit_next]

end Sys2Proof.Machine
end

section
/-! The host's loop (R108, R109), and the jump and the call a cycle repeats. -/

namespace Sys2Proof.Machine

/-! ## Runs of the host's loop -/

/-- A run with `m` more cycles allowed: only one the host stopped goes on. -/
def RunEnd.resume (m : Nat) : RunEnd → RunEnd
  | .stopped s => hostLoop m s
  | .halted t => .halted t
  | .faulted k t => .faulted k t
  | .refused r t => .refused r t

/-- Why a run ended: `Halted` with the HALT word at PC (HALT keeps PC), or a fault the final state's
own cycle raises; no run is refused. -/
def RunEnd.Justified : RunEnd → Prop
  | .stopped _ => True
  | .halted t => t.lastStatus = .halted ∧ fetch t = .ok 0x00FD#16
  | .faulted k t => step t = .fault k
  | .refused _ _ => False

/-- One turn of the loop: it ends at a fault or at `Halted`, else it goes on (R108). -/
theorem step_turn (s : State) :
    (∃ k, step s = .fault k) ∨ (∃ t, step s = .next t ∧ t.lastStatus = .halted) ∨
      ∃ t, step s = .next t ∧ t.lastStatus = .continued := by
  obtain ⟨t, h⟩ | ⟨k, h⟩ := step_next_or_fault s
  · cases hstatus : t.lastStatus with
    | halted => exact .inr (.inl ⟨t, h, hstatus⟩)
    | continued => exact .inr (.inr ⟨t, h, hstatus⟩)
  · exact .inl ⟨k, h⟩

/-- A run of `n + m` cycles is a run of `n`, resumed for `m`. -/
theorem hostLoop_add (n m : Nat) (s : State) : hostLoop (n + m) s = (hostLoop n s).resume m := by
  induction n generalizing s with
  | zero => rw [Nat.zero_add]; rfl
  | succ n ih =>
    rw [Nat.add_right_comm]
    obtain ⟨k, h⟩ | ⟨t, h, hstatus⟩ | ⟨t, h, hstatus⟩ := step_turn s
    · rw [hostLoop_fault h, hostLoop_fault h]
      rfl
    · rw [hostLoop_halted h hstatus, hostLoop_halted h hstatus]
      rfl
    · rw [hostLoop_continued h hstatus, hostLoop_continued h hstatus]
      exact ih t

theorem justified_hostLoop (n : Nat) (s : State) : (hostLoop n s).Justified := by
  induction n generalizing s with
  | zero => trivial
  | succ n ih =>
    obtain ⟨k, h⟩ | ⟨t, h, hstatus⟩ | ⟨t, h, hstatus⟩ := step_turn s
    · rw [hostLoop_fault h]
      exact h
    · rw [hostLoop_halted h hstatus]
      exact ⟨hstatus, (halted_repeats h ((lastStatus_halted_iff h).mp hstatus)).1⟩
    · rw [hostLoop_continued h hstatus]
      exact ih t

/-- A state its own cycle leaves unchanged is still running after any number of cycles. -/
theorem hostLoop_of_fixed {t : State} (h : step t = .next t) (hstatus : t.lastStatus = .continued)
    (n : Nat) : hostLoop n t = .stopped t := by
  induction n with
  | zero => rfl
  | succ n ih => rw [hostLoop_continued h hstatus, ih]

/-! ## The jump and the call to itself (R80, R81) -/

/-- Memory and PC as before, the same word is fetched again. -/
theorem fetch_again {s t : State} {w : Word} (hf : fetch s = .ok w) (hmem : t.mem = s.mem)
    (hpc : t.pc = s.pc) : fetch t = .ok w :=
  (fetch_congr hmem hpc).trans hf

/-- After a jump to itself has run once, it changes nothing more. -/
theorem step_self_jump {t : State} {w : Word} (hf : fetch t = .ok w) (hw : w.toNat / 4096 = 1)
    (hself : t.pc = addressOperand (nnnField w)) (hlast : t.lastWord = w)
    (hstatus : t.lastStatus = .continued) : step t = .next t := by
  rw [step_jp hf hw, ← hself, ← hlast, ← hstatus]

/-- One call to itself with a free slot: SP is one higher, and the same CALL is fetched again. -/
theorem step_self_call {s : State} {w : Word} (hf : fetch s = .ok w) (hw : w.toNat / 4096 = 2)
    (hself : s.pc = addressOperand (nnnField w)) (hroom : s.sp.val < 16) :
    ∃ t, step s = .next t ∧ t.lastStatus = .continued ∧ t.sp.val = s.sp.val + 1 ∧ t.pc = s.pc ∧
      fetch t = .ok w := by
  have hfree : (⟨s.sp.val, hroom⟩ : Fin 16).val = s.sp.val := rfl
  exact ⟨_, step_call hf hw hfree, rfl, rfl, hself.symm, fetch_again hf rfl hself.symm⟩

/-- `n` calls to itself fit `n` free slots, and the same CALL is fetched again after them. -/
theorem hostLoop_self_call {s : State} {w : Word} {n : Nat} (hf : fetch s = .ok w)
    (hw : w.toNat / 4096 = 2) (hself : s.pc = addressOperand (nnnField w))
    (hroom : s.sp.val + n ≤ 16) :
    ∃ u, hostLoop n s = .stopped u ∧ u.sp.val = s.sp.val + n ∧ u.pc = s.pc ∧ fetch u = .ok w := by
  induction n generalizing s with
  | zero => exact ⟨s, rfl, rfl, rfl, hf⟩
  | succ n ih =>
    obtain ⟨t, hstep, hstatus, hsp, hpc, hft⟩ := step_self_call hf hw hself (by omega)
    obtain ⟨u, hrun, hspu, hpcu, hfu⟩ := ih hft (hpc.trans hself) (by omega)
    refine ⟨u, ?_, by omega, hpcu.trans hpc, hfu⟩
    rw [hostLoop_continued hstep hstatus, hrun]

/-! ## The obligations -/

/-- Settles O47: a terminal end stays when the run is resumed (`hostLoop_add`), and every end is
justified by its final state. -/
theorem hostLoopEndsAtTheFirstTerminalStatus : Obligations.HostLoopEndsAtTheFirstTerminalStatus := by
  intro n s
  have hjust := justified_hostLoop n s
  refine ⟨fun t hend => ?_, fun k t hend => ?_, fun r t hend => ?_⟩ <;> rw [hend] at hjust
  · exact ⟨fun m => by rw [hostLoop_add, hend]; rfl, hjust⟩
  · exact ⟨fun m => by rw [hostLoop_add, hend]; rfl, hjust⟩
  · exact hjust

/-- Settles O37, by JP's rules for `exec` and for the cycle; a jump to itself is a state its cycle
leaves unchanged. -/
theorem jumpSetsPcToItsAddressOperand : Obligations.JumpSetsPcToItsAddressOperand := by
  refine ⟨fun s addr => ⟨_, exec_jp addr s, rfl, addressOperand_toNat addr⟩,
    fun s w hf hmask => ?_, ⟨_, _, rfl, rfl, rfl, rfl⟩⟩
  have hw := (and_nibble_mask_eq_iff (k := 1) (by omega) w).mp hmask
  have hstep := step_jp hf hw
  have hgoal := addressOperand_nnnField_toNat w
  refine ⟨_, hstep, rfl, hgoal, fun htop => ?_, fun hself n hn => ?_⟩
  · exact step_of_fetch_error (fetch_out (hgoal.trans (by rw [htop]; rfl)).ge)
  · have hpc : addressOperand (nnnField w) = s.pc := BitVec.eq_of_toNat_eq (hgoal.trans hself.symm)
    obtain ⟨n, rfl⟩ := Nat.exists_eq_succ_of_ne_zero hn.ne'
    rw [hostLoop_continued hstep rfl]
    refine hostLoop_of_fixed (step_self_jump ?_ hw rfl rfl rfl) rfl n
    exact fetch_again hf rfl hpc

/-- Settles O38, by CALL's rules with a free slot and on the full stack; sixteen calls to itself fill
the stack (`hostLoop_self_call`), and the next one overflows. -/
theorem callPushesItsOwnAddressAndJumps : Obligations.CallPushesItsOwnAddressAndJumps := by
  refine ⟨fun s addr => ⟨fun hroom => ?_, exec_call_full addr⟩, fun s w hf hmask => ?_,
    ⟨_, _, rfl, rfl, rfl, rfl, rfl, rfl⟩⟩
  · have hfree : (⟨s.sp.val, hroom⟩ : Fin 16).val = s.sp.val := rfl
    refine ⟨_, exec_call addr hfree, rfl, addressOperand_toNat addr, rfl, fun k => ?_⟩
    simp only [Vector.getElem_set, eq_comm]
  · have hw := (and_nibble_mask_eq_iff (k := 2) (by omega) w).mp hmask
    have hgoal := addressOperand_nnnField_toNat w
    have hoverflow : ∀ u, fetch u = .ok w → u.sp.val = 16 → step u = .fault .stackOverflow :=
      fun u hfu hfull => step_fault_iff.mpr (.inr ⟨w, hfu, .inr (.inl ⟨hw, hfull, rfl⟩)⟩)
    refine ⟨fun hroom => ?_, fun hfull => cycle_of_fault (hoverflow s hf hfull),
      fun hempty hself => ?_⟩
    · have hfree : (⟨s.sp.val, hroom⟩ : Fin 16).val = s.sp.val := rfl
      refine ⟨_, step_call hf hw hfree, rfl, hgoal, rfl, fun k => ?_⟩
      simp only [Vector.getElem_set, eq_comm]
    · have hpc : s.pc = addressOperand (nnnField w) := BitVec.eq_of_toNat_eq (hself.trans hgoal.symm)
      obtain ⟨u, hrun, hsp, hpcu, hfu⟩ := hostLoop_self_call (n := 16) hf hw hpc (by omega)
      have hfull : u.sp.val = 16 := by omega
      refine ⟨u, hrun, ?_, hfull, hpcu⟩
      rw [hostLoop_add 16 1, hrun]
      exact hostLoop_fault (hoverflow u hfu hfull)

end Sys2Proof.Machine
end

section
/-! Construction and the host's operations (R13 to R17, R30, R40, R48, R49, R101, R110). -/

namespace Sys2Proof.Machine

/-! ## Histories of host operations -/

/-- What every load that succeeds and every completed cycle keeps, every host operation keeps. -/
theorem perform_keeps {P : State → Prop} {s : State} (hs : P s)
    (hload : ∀ bytes t, load bytes s = .ok t → P t) (hstep : ∀ t, step s = .next t → P t)
    (op : HostOp) : P (op.perform s).2 := by
  cases op with
  | load bytes =>
    cases h : load bytes s with
    | ok t => rw [perform_load_ok h]; exact hload bytes t h
    | error k => rw [perform_load_error h]; exact hs
  | cycle =>
    show P (cycle s).2
    obtain ⟨t, h⟩ | ⟨k, h⟩ := step_next_or_fault s
    · rw [cycle_of_next h]
      exact hstep t h
    · rw [cycle_of_fault h]
      exact hs
  | readOut => exact hs

/-- What every host operation keeps holds after every history. -/
theorem performAll_keeps {P : State → Prop} (hop : ∀ s, P s → ∀ op : HostOp, P (op.perform s).2)
    {s : State} (hs : P s) (ops : List HostOp) : P (performAll s ops) := by
  induction ops generalizing s with
  | nil => exact hs
  | cons op ops ih => exact ih (hop s hs op)

theorem readV_construct (idx : Fin 16) : readV construct idx = 0x00#8 := by
  simp [construct]

theorem dataRegistersAtReset_construct : DataRegistersAtReset construct :=
  ⟨readV_construct, rfl⟩

theorem dataRegistersAtReset_of_eq {s t : State} (hs : DataRegistersAtReset s) (hv : t.v = s.v)
    (hi : t.i = s.i) : DataRegistersAtReset t := by
  obtain ⟨hregs, hindex⟩ := hs
  exact ⟨fun idx => by rw [readV_eq, hv]; exact hregs idx, hi.trans hindex⟩

/-- The invariant and the reset values of V and I, after every history from construction. -/
theorem inv_dataRegistersAtReset_performAll (ops : List HostOp) :
    Inv (performAll construct ops) ∧ DataRegistersAtReset (performAll construct ops) := by
  refine performAll_keeps (P := fun s => Inv s ∧ DataRegistersAtReset s) (fun s hs op => ?_)
    ⟨inv_construct, dataRegistersAtReset_construct⟩ ops
  obtain ⟨hinv, hregs⟩ := hs
  refine perform_keeps (P := fun s => Inv s ∧ DataRegistersAtReset s) ⟨hinv, hregs⟩
    (fun bytes t h => ?_) (fun t h => ?_) op
  · obtain ⟨-, hframe, -, -, -⟩ := load_ok h hinv.memWf
    exact ⟨inv_load hinv h, dataRegistersAtReset_of_eq hregs (by rw [hframe]) (by rw [hframe])⟩
  · obtain ⟨-, hv, hi, -⟩ := step_frame h
    exact ⟨inv_step hinv h, dataRegistersAtReset_of_eq hregs hv hi⟩

/-! ## Construction contents (R30, R38) -/

theorem fontTable_length : fontTable.length = 80 := rfl

theorem unlistedByte_font {k : Nat} (hk : k < fontTable.length) : unlistedByte k = fontTable[k] := by
  simp [unlistedByte, constructionByte, Config.fontBase, hk]

theorem unlistedByte_above_font {a : Nat} (ha : 80 ≤ a) : unlistedByte a = 0x00#8 := by
  have hend : fontTable.length ≤ a - Config.fontBase := ha
  rw [unlistedByte, constructionByte, List.getD_eq_default _ _ hend, ite_self]

/-! ## The obligations -/

/-- Settles O32: the history keeps the invariant and the registers, and the font is part of the
reserved region. -/
theorem everyHostHistoryKeepsTheReservedRegionAndRegisters :
    Obligations.EveryHostHistoryKeepsTheReservedRegionAndRegisters := by
  intro ops
  obtain ⟨hinv, hregs⟩ := inv_dataRegistersAtReset_performAll ops
  refine ⟨hinv, hregs, fun k hk => ?_⟩
  have hreserved : k < Config.progBase := by
    rw [fontTable_length] at hk
    simp only [Config.progBase]
    omega
  rw [hinv.reserved k hreserved, unlistedByte_font hk]

/-- Settles O1, by the fields of the constructed state. -/
theorem constructedStateHoldsResetValues : Obligations.ConstructedStateHoldsResetValues :=
  ⟨rfl, rfl, rfl, readV_construct, fun k => by simp [construct], rfl, rfl⟩

/-- Settles O2: the font bytes are read off, and everything above the font is unlisted zeros. -/
theorem constructedMemoryHoldsFontThenZeros : Obligations.ConstructedMemoryHoldsFontThenZeros :=
  ⟨rfl, fun _ ha _ => unlistedByte_above_font ha⟩

/-- Settles O3, by the invariant and the registers of the constructed state. -/
theorem constructedStateSatisfiesInvariant : Obligations.ConstructedStateSatisfiesInvariant :=
  ⟨inv_construct, dataRegistersAtReset_construct⟩

/-- Settles O4, by the vector's own laws of a write. -/
theorem registerWriteChangesOnlyThatRegister : Obligations.RegisterWriteChangesOnlyThatRegister := by
  refine fun s idx b w => ⟨?_, fun other hne => ?_, rfl, rfl, rfl⟩
  · exact Vector.getElem_set_self idx.isLt
  · exact Vector.getElem_set_ne idx.isLt other.isLt (fun heq => hne (Fin.ext heq.symm))

/-- Settles O44, by the tables of codes. -/
theorem faultAndStatusCodesAreAsListed : Obligations.FaultAndStatusCodesAreAsListed :=
  ⟨rfl, rfl, rfl, fun _ => rfl, rfl, rfl, rfl, fun _ => rfl⟩

/-- Settles O45: the two bytes at 0x200 are unlisted zeros, and 0x0000 is an unknown word. -/
theorem cycleWithNoProgramFaultsOnZeroWord : Obligations.CycleWithNoProgramFaultsOnZeroWord :=
  (unknownWordFaultsWithTheWholeWord construct 0x0000#16).2 rfl rfl

/-- Settles O48, field by field. -/
theorem readOutReportsTheWholeStateUnchanged : Obligations.ReadOutReportsTheWholeStateUnchanged := by
  refine fun s => ⟨rfl, ?_, fun a ha => ?_, ?_, fun idx => ?_, ?_, fun k => ?_, rfl, rfl, rfl, rfl⟩
  · simp [readOut, Config.memSize]
  · simp [readOut, Config.memSize, ha]
  · simp [readOut]
  · simp [readOut]
  · simp [readOut]
  · simp [readOut]

end Sys2Proof.Machine
end
